-- ==== Sys2Proof/Word.lean ====
section
/-! DEFINITION. The word types of the machine (spec 00 R6, R7: every register, memory word and ALU value has 32 bits). -/

namespace Sys2Proof

/-- A 32-bit register, memory, ALU or instruction word (spec 00 R6, XLEN = 32). -/
abbrev Word := BitVec 32

/-- One byte lane of a memory word (spec 20 R34 to R36). -/
abbrev Byte := BitVec 8

/-- A register number: a 5-bit field, so every value is a register (spec 10 R13). -/
abbrev RegIdx := BitVec 5

end Sys2Proof
end

