-- ==== Sys2Proof/Config.lean ====
section
/-! DEFINITION. The two parameters the spec leaves open (spec 00 R6; 92 D9, D14). The hardware has no undefined value, so
there is no free value here (spec 93, end of part 1). -/

namespace Sys2Proof

/-- A build of the hardware: what spec 00 R6 calls OPEN. Fixed for the life of a machine (spec 10 R29); log entry 1 says why
a machine state carries it. -/
structure Config where
  /-- MEM_WORDS: how many 32-bit words of data memory the build has (spec 20 R30). -/
  memWords : Nat
  /-- SUBWORD_LS: whether `lb lh lbu lhu sb sh` exist (spec 43, 44; 48 R150). -/
  subwordLs : Bool
  deriving DecidableEq, Repr

/-- The constraint spec 00 R6 puts on MEM_WORDS. -/
abbrev Config.wf (c : Config) : Prop := 256 ≤ c.memWords ∧ c.memWords ≤ 2 ^ 31

/-- The build a power-on state has. DESIGN CHOICE (log entry 2; unsafe for a claim about this one build): MEM_WORDS is the
spec's default; SUBWORD_LS is true, as in the spec's test vectors (spec 95), so that all 37 instructions exist. -/
def Config.powerOn : Config := { memWords := 256, subwordLs := true }

end Sys2Proof
end

