-- ==== Sys2Proof/Syntax.lean ====
section
/-! DEFINITION. The instructions: one constructor per row of the opcode table (spec 30 R60; 48 R145 to R147). -/

namespace Sys2Proof

/-- One decoded instruction. `imm` is the 12-bit field before extension (spec 30 R54, R55), `imm20` the upper field (R57),
`shamt` the 5-bit shift amount (R59), `off` the signed offset in INSTRUCTIONS: offB in 11 bits (R56), offJ in 19 bits (R58).
`fence` and `fencei` keep the bits the hardware does not look at (48 R145: any other bits), so that their word is known. -/
inductive Instr where
  -- class Upper
  | lui (rd : RegIdx) (imm20 : BitVec 20)
  | auipc (rd : RegIdx) (imm20 : BitVec 20)
  -- class Jump
  | jal (rd : RegIdx) (off : BitVec 19)
  | jalr (rd rs1 : RegIdx) (imm : BitVec 12)
  -- class Branch
  | beq (rs1 rs2 : RegIdx) (off : BitVec 11)
  | bne (rs1 rs2 : RegIdx) (off : BitVec 11)
  | blt (rs1 rs2 : RegIdx) (off : BitVec 11)
  | bge (rs1 rs2 : RegIdx) (off : BitVec 11)
  | bltu (rs1 rs2 : RegIdx) (off : BitVec 11)
  | bgeu (rs1 rs2 : RegIdx) (off : BitVec 11)
  -- class Load
  | lb (rd rs1 : RegIdx) (imm : BitVec 12)
  | lh (rd rs1 : RegIdx) (imm : BitVec 12)
  | lw (rd rs1 : RegIdx) (imm : BitVec 12)
  | lbu (rd rs1 : RegIdx) (imm : BitVec 12)
  | lhu (rd rs1 : RegIdx) (imm : BitVec 12)
  -- class Store
  | sb (rs2 rs1 : RegIdx) (imm : BitVec 12)
  | sh (rs2 rs1 : RegIdx) (imm : BitVec 12)
  | sw (rs2 rs1 : RegIdx) (imm : BitVec 12)
  -- class I
  | addi (rd rs1 : RegIdx) (imm : BitVec 12)
  | slti (rd rs1 : RegIdx) (imm : BitVec 12)
  | sltiu (rd rs1 : RegIdx) (imm : BitVec 12)
  | xori (rd rs1 : RegIdx) (imm : BitVec 12)
  | ori (rd rs1 : RegIdx) (imm : BitVec 12)
  | andi (rd rs1 : RegIdx) (imm : BitVec 12)
  | slli (rd rs1 : RegIdx) (shamt : BitVec 5)
  | srli (rd rs1 : RegIdx) (shamt : BitVec 5)
  | srai (rd rs1 : RegIdx) (shamt : BitVec 5)
  -- class R
  | add (rd rs1 rs2 : RegIdx)
  | sub (rd rs1 rs2 : RegIdx)
  | sll (rd rs1 rs2 : RegIdx)
  | slt (rd rs1 rs2 : RegIdx)
  | sltu (rd rs1 rs2 : RegIdx)
  | xor (rd rs1 rs2 : RegIdx)
  | srl (rd rs1 rs2 : RegIdx)
  | sra (rd rs1 rs2 : RegIdx)
  | or (rd rs1 rs2 : RegIdx)
  | and (rd rs1 rs2 : RegIdx)
  -- named and unsupported (spec 48)
  | fence (rd rs1 : RegIdx) (imm : BitVec 12)
  | fencei (rd rs1 : RegIdx) (imm : BitVec 12)
  | ecall
  | ebreak
  deriving DecidableEq, Repr

end Sys2Proof
end

