-- ==== Sys2Proof/Machine/State.lean ====
section
/-! DEFINITION. The state of the machine as plain data, and its power-on value (spec 10 R10 to R29). -/

namespace Sys2Proof.Machine

/-- The class of an instruction, the snapshot's `type` tag (spec 10 R19; 40 R83). -/
inductive InstrClass where
  | r | i | load | store | branch | jump | upper
  deriving DecidableEq, Repr

/-- The operations of the ALU, the snapshot's `alu_op` tag (spec 40 R79, R84). -/
inductive AluOp where
  | add | sub | and | or | xor | sll | srl | sra | slt | sltu
  deriving DecidableEq, Repr

/-- The control-signal snapshot: the eight fields of spec 10 R19. -/
structure Snapshot where
  type : InstrClass
  aluOp : AluOp
  wer : Bool
  aluSrc : Bool
  alu2reg : Bool
  wem : Bool
  branch : Bool
  jump : Bool
  deriving DecidableEq, Repr

/-- The error codes of spec 60 R155. Code 0 is the absence of a record; the last two are never raised (R157, R158). -/
inductive ErrCode where
  | decodeError
  | operandError
  | outOfRangeAddress
  | misalignedAccess
  deriving DecidableEq, Repr

/-- The error record `(code, pc, instr)` (spec 10 R22; 60 R155). -/
structure ErrRecord where
  code : ErrCode
  pc : Word
  instr : Word
  deriving DecidableEq, Repr

/-- The status output (spec 10 R21). -/
inductive Status where
  | ready | halted | error
  deriving DecidableEq, Repr

/-- Data memory as byte lanes: cell `4 * k + j` holds bits `8j+7` to `8j` of `M[k]` (log entry 3). -/
abbrev Memory := List Host.Cell

/-- What a lane no cell lists reads as: memory is zero-filled at load and reset (spec 10 R18, R28). -/
def Memory.unlisted : Byte := 0#8

/-- The state tuple `(x, pc, M, IM, L, snap, err)` of spec 10, with `L` the length of `im`, the output `taken` that the host
reads between steps (spec 40 R88; 70 R178; log entry 7) and the parameters of the build (log entry 1). -/
structure State where
  /-- MEM_WORDS and SUBWORD_LS: never changed (spec 10 R29). -/
  cfg : Config
  /-- The register file (spec 10 R10); `State.readReg` and `State.writeReg` hardwire `x[0]`. -/
  regs : Vector Word 32
  /-- The program counter, an instruction index (spec 10 R14). -/
  pc : Word
  /-- The data memory (spec 10 R18). -/
  mem : Memory
  /-- The program store; its length is `L` (spec 10 R17). -/
  im : List Word
  /-- The control-signal snapshot, or none (spec 10 R19, R20). -/
  snap : Option Snapshot
  /-- The branch/jump multiplexer output of the last successful step (spec 40 R88). -/
  taken : Bool
  /-- The error record, or none (spec 10 R22). -/
  err : Option ErrRecord
  deriving DecidableEq, Repr

/-- Why a step could stop the machine. Nothing does: a step is a total function (spec 40 R70) and an error of a step is a
state with `err` set (spec 60 R156), so no constructor stands here and no definition can raise a fault. -/
inductive Fault where
  deriving DecidableEq, Repr

/-- Why an instruction has no meaning. -/
inductive Refusal where
  /-- An instruction not modelled yet, raised by `exec` alone; safe. No arm of `exec` raises it. -/
  | notModelled (mnemonic : String)
  deriving DecidableEq, Repr

/-- The outcome of an instruction or a step. -/
abbrev Result := Host.Outcome State Fault Refusal

/-- A machine of build `c` with program `p`, every other piece of state at the value spec 10 R28 tabulates. -/
def State.initial (c : Config) (p : List Word) : State :=
  { cfg := c, regs := Vector.replicate 32 0#32, pc := 0#32, mem := [], im := p, snap := none, taken := false, err := none }

/-- The machine right after power-on reset: the empty program is loaded (spec 10 R28, last paragraph), so it is Halted until
the host loads a program (log entry 4). The build is `Config.powerOn` (log entry 2). -/
def State.reset : State := State.initial Config.powerOn []

end Sys2Proof.Machine
end

