-- ==== Sys2Proof/Machine/Flags.lean ====
section
/-! DEFINITION. The control-signal encoder (spec 40 R80, R82) and the branch comparator (R87). There are no condition flags
(spec 10 R23): the flags of this hardware are those of the snapshot. -/

namespace Sys2Proof.Machine

/-- The snapshot of a class and an ALU operation: the table of spec 40 R82. -/
def controlSignals : InstrClass → AluOp → Snapshot
  | .r, op =>
    { type := .r, aluOp := op, wer := true, aluSrc := false, alu2reg := true, wem := false, branch := false, jump := false }
  | .i, op =>
    { type := .i, aluOp := op, wer := true, aluSrc := true, alu2reg := true, wem := false, branch := false, jump := false }
  | .load, op =>
    { type := .load, aluOp := op, wer := true, aluSrc := true, alu2reg := false, wem := false, branch := false, jump := false }
  | .store, op =>
    { type := .store, aluOp := op, wer := false, aluSrc := true, alu2reg := false, wem := true, branch := false, jump := false }
  | .branch, op =>
    { type := .branch, aluOp := op, wer := false, aluSrc := false, alu2reg := false, wem := false, branch := true, jump := false }
  | .jump, op =>
    { type := .jump, aluOp := op, wer := true, aluSrc := true, alu2reg := false, wem := false, branch := false, jump := true }
  | .upper, op =>
    { type := .upper, aluOp := op, wer := true, aluSrc := true, alu2reg := true, wem := false, branch := false, jump := false }

/-- The relation a branch tests (spec 40 R87). -/
inductive BranchRel where
  | eq | ne | lt | ge | ltu | geu
  deriving DecidableEq, Repr

/-- The branch comparator (spec 40 R87). -/
def branchCond : BranchRel → Word → Word → Bool
  | .eq, a, b => decide (a = b)
  | .ne, a, b => decide (a ≠ b)
  | .lt, a, b => decide (a.toInt < b.toInt)
  | .ge, a, b => decide (b.toInt ≤ a.toInt)
  | .ltu, a, b => decide (a.toNat < b.toNat)
  | .geu, a, b => decide (b.toNat ≤ a.toNat)

/-- The ALU operation of a branch (spec 40 R80). -/
def BranchRel.aluOp : BranchRel → AluOp
  | .eq | .ne => .sub
  | .lt | .ge => .slt
  | .ltu | .geu => .sltu

end Sys2Proof.Machine
end

