-- ==== Sys2Proof/WellFormed.lean ====
section
/-! DEFINITION. Which instructions a build can decode (spec 30 R60 step 3). The widths of the fields in `Instr` already keep
every register, immediate and offset in range. -/

namespace Sys2Proof

/-- The six instructions of the spec's richer variant, which exist only when SUBWORD_LS (spec 30 R60 step 3; 48 R150). -/
def Instr.isSubword : Instr → Bool
  | .lb _ _ _ | .lh _ _ _ | .lbu _ _ _ | .lhu _ _ _ | .sb _ _ _ | .sh _ _ _ => true
  | .lui _ _ | .auipc _ _ | .jal _ _ | .jalr _ _ _ => false
  | .beq _ _ _ | .bne _ _ _ | .blt _ _ _ | .bge _ _ _ | .bltu _ _ _ | .bgeu _ _ _ => false
  | .lw _ _ _ | .sw _ _ _ => false
  | .addi _ _ _ | .slti _ _ _ | .sltiu _ _ _ | .xori _ _ _ | .ori _ _ _ | .andi _ _ _ => false
  | .slli _ _ _ | .srli _ _ _ | .srai _ _ _ => false
  | .add _ _ _ | .sub _ _ _ | .sll _ _ _ | .slt _ _ _ | .sltu _ _ _ | .xor _ _ _ | .srl _ _ _ | .sra _ _ _
  | .or _ _ _ | .and _ _ _ => false
  | .fence _ _ _ | .fencei _ _ _ | .ecall | .ebreak => false

/-- The instruction is one the decoder of build `c` can deliver (spec 30 R60). -/
def Instr.wellFormed (c : Config) (i : Instr) : Bool := !i.isSubword || c.subwordLs

end Sys2Proof
end

