-- ==== Sys2Proof/Decode.lean ====
section
/-! DEFINITION. Fields of an instruction word, the opcode map, the decoder and the encoder (spec 30 R46 to R61). -/

namespace Sys2Proof

/-! ## Fields (spec 30 R47) -/

/-- `w[6:0]`, the major opcode. -/
def opcodeOf (w : Word) : BitVec 7 := w.extractLsb' 0 7
/-- `w[11:7]`. -/
def rdOf (w : Word) : RegIdx := w.extractLsb' 7 5
/-- `w[14:12]`. -/
def funct3Of (w : Word) : BitVec 3 := w.extractLsb' 12 3
/-- `w[19:15]`. -/
def rs1Of (w : Word) : RegIdx := w.extractLsb' 15 5
/-- `w[24:20]`; also the shift amount of `slli srli srai` (spec 30 R59). -/
def rs2Of (w : Word) : RegIdx := w.extractLsb' 20 5
/-- `w[31:25]`. -/
def funct7Of (w : Word) : BitVec 7 := w.extractLsb' 25 7
/-- The I immediate field `w[31:20]` (spec 30 R49, R54). -/
def immIOf (w : Word) : BitVec 12 := w.extractLsb' 20 12
/-- The S immediate field `w[31:25] ++ w[11:7]` (spec 30 R50, R55). -/
def immSOf (w : Word) : BitVec 12 := w.extractLsb' 25 7 ++ w.extractLsb' 7 5
/-- The U immediate field `w[31:12]` (spec 30 R52, R57). -/
def imm20Of (w : Word) : BitVec 20 := w.extractLsb' 12 20
/-- The 13-bit byte offset of a branch (spec 30 R51, R56). -/
def immBOf (w : Word) : BitVec 13 :=
  w.extractLsb' 31 1 ++ w.extractLsb' 7 1 ++ w.extractLsb' 25 6 ++ w.extractLsb' 8 4 ++ 0#1
/-- The 21-bit byte offset of `jal` (spec 30 R53, R58). -/
def immJOf (w : Word) : BitVec 21 :=
  w.extractLsb' 31 1 ++ w.extractLsb' 12 8 ++ w.extractLsb' 20 1 ++ w.extractLsb' 21 10 ++ 0#1
/-- offB: the byte offset in whole instructions, 11 bits, signed (spec 30 R56). -/
def offBOf (w : Word) : BitVec 11 := (immBOf w).extractLsb' 2 11
/-- offJ: the byte offset in whole instructions, 19 bits, signed (spec 30 R58). -/
def offJOf (w : Word) : BitVec 19 := (immJOf w).extractLsb' 2 19

/-! ## The opcode map (spec 30 R60) -/

/-- The fixed bits of a row: the columns opcode, funct3, funct7 of spec 30 R60, or a whole word (`ecall`, `ebreak`). -/
inductive Pattern where
  | op (opcode : BitVec 7)
  | op3 (opcode : BitVec 7) (funct3 : BitVec 3)
  | op37 (opcode : BitVec 7) (funct3 : BitVec 3) (funct7 : BitVec 7)
  | whole (w : Word)
  deriving DecidableEq, Repr

/-- The fixed bits equal those of `w`. -/
def Pattern.fits : Pattern → Word → Bool
  | .op o, w => opcodeOf w == o
  | .op3 o f3, w => opcodeOf w == o && funct3Of w == f3
  | .op37 o f3 f7, w => opcodeOf w == o && funct3Of w == f3 && funct7Of w == f7
  | .whole v, w => w == v

/-- One row: its fixed bits and the instruction its fields make. -/
structure Row where
  pattern : Pattern
  build : Word → Instr

/-- An I-format instruction from its fields (spec 30 R49). -/
def fieldsI (f : RegIdx → RegIdx → BitVec 12 → Instr) (w : Word) : Instr := f (rdOf w) (rs1Of w) (immIOf w)
/-- A shift-immediate instruction from its fields (spec 30 R49, R59). -/
def fieldsShift (f : RegIdx → RegIdx → BitVec 5 → Instr) (w : Word) : Instr := f (rdOf w) (rs1Of w) (rs2Of w)
/-- An R-format instruction from its fields (spec 30 R48). -/
def fieldsR (f : RegIdx → RegIdx → RegIdx → Instr) (w : Word) : Instr := f (rdOf w) (rs1Of w) (rs2Of w)
/-- An S-format instruction from its fields (spec 30 R50). -/
def fieldsS (f : RegIdx → RegIdx → BitVec 12 → Instr) (w : Word) : Instr := f (rs2Of w) (rs1Of w) (immSOf w)
/-- A B-format instruction from its fields (spec 30 R51). -/
def fieldsB (f : RegIdx → RegIdx → BitVec 11 → Instr) (w : Word) : Instr := f (rs1Of w) (rs2Of w) (offBOf w)
/-- A U-format instruction from its fields (spec 30 R52). -/
def fieldsU (f : RegIdx → BitVec 20 → Instr) (w : Word) : Instr := f (rdOf w) (imm20Of w)
/-- A J-format instruction from its fields (spec 30 R53). -/
def fieldsJ (f : RegIdx → BitVec 19 → Instr) (w : Word) : Instr := f (rdOf w) (offJOf w)

/-- Major opcodes (spec 30 R60; 48 R145, R148). -/
def opLui : BitVec 7 := 0b0110111#7
def opAuipc : BitVec 7 := 0b0010111#7
def opJal : BitVec 7 := 0b1101111#7
def opJalr : BitVec 7 := 0b1100111#7
def opBranch : BitVec 7 := 0b1100011#7
def opLoad : BitVec 7 := 0b0000011#7
def opStore : BitVec 7 := 0b0100011#7
def opImm : BitVec 7 := 0b0010011#7
def opReg : BitVec 7 := 0b0110011#7
def opFence : BitVec 7 := 0b0001111#7
def opSystem : BitVec 7 := 0b1110011#7

/-- Upper, Jump and Branch rows of spec 30 R60. -/
def rowsControl : List Row :=
  [ ⟨.op opLui, fieldsU .lui⟩,
    ⟨.op opAuipc, fieldsU .auipc⟩,
    ⟨.op opJal, fieldsJ .jal⟩,
    ⟨.op3 opJalr 0b000#3, fieldsI .jalr⟩,
    ⟨.op3 opBranch 0b000#3, fieldsB .beq⟩,
    ⟨.op3 opBranch 0b001#3, fieldsB .bne⟩,
    ⟨.op3 opBranch 0b100#3, fieldsB .blt⟩,
    ⟨.op3 opBranch 0b101#3, fieldsB .bge⟩,
    ⟨.op3 opBranch 0b110#3, fieldsB .bltu⟩,
    ⟨.op3 opBranch 0b111#3, fieldsB .bgeu⟩ ]

/-- Load and Store rows of spec 30 R60. -/
def rowsMemory : List Row :=
  [ ⟨.op3 opLoad 0b000#3, fieldsI .lb⟩,
    ⟨.op3 opLoad 0b001#3, fieldsI .lh⟩,
    ⟨.op3 opLoad 0b010#3, fieldsI .lw⟩,
    ⟨.op3 opLoad 0b100#3, fieldsI .lbu⟩,
    ⟨.op3 opLoad 0b101#3, fieldsI .lhu⟩,
    ⟨.op3 opStore 0b000#3, fieldsS .sb⟩,
    ⟨.op3 opStore 0b001#3, fieldsS .sh⟩,
    ⟨.op3 opStore 0b010#3, fieldsS .sw⟩ ]

/-- Class I rows of spec 30 R60. -/
def rowsImm : List Row :=
  [ ⟨.op3 opImm 0b000#3, fieldsI .addi⟩,
    ⟨.op3 opImm 0b010#3, fieldsI .slti⟩,
    ⟨.op3 opImm 0b011#3, fieldsI .sltiu⟩,
    ⟨.op3 opImm 0b100#3, fieldsI .xori⟩,
    ⟨.op3 opImm 0b110#3, fieldsI .ori⟩,
    ⟨.op3 opImm 0b111#3, fieldsI .andi⟩,
    ⟨.op37 opImm 0b001#3 0b0000000#7, fieldsShift .slli⟩,
    ⟨.op37 opImm 0b101#3 0b0000000#7, fieldsShift .srli⟩,
    ⟨.op37 opImm 0b101#3 0b0100000#7, fieldsShift .srai⟩ ]

/-- Class R rows of spec 30 R60. -/
def rowsReg : List Row :=
  [ ⟨.op37 opReg 0b000#3 0b0000000#7, fieldsR .add⟩,
    ⟨.op37 opReg 0b000#3 0b0100000#7, fieldsR .sub⟩,
    ⟨.op37 opReg 0b001#3 0b0000000#7, fieldsR .sll⟩,
    ⟨.op37 opReg 0b010#3 0b0000000#7, fieldsR .slt⟩,
    ⟨.op37 opReg 0b011#3 0b0000000#7, fieldsR .sltu⟩,
    ⟨.op37 opReg 0b100#3 0b0000000#7, fieldsR .xor⟩,
    ⟨.op37 opReg 0b101#3 0b0000000#7, fieldsR .srl⟩,
    ⟨.op37 opReg 0b101#3 0b0100000#7, fieldsR .sra⟩,
    ⟨.op37 opReg 0b110#3 0b0000000#7, fieldsR .or⟩,
    ⟨.op37 opReg 0b111#3 0b0000000#7, fieldsR .and⟩ ]

/-- The four named rows without an implementation (opcode_table.json; spec 48 R145 to R147). Decoding names them and their
meaning is the failed step with DecodeError (log entry 5). -/
def rowsUnsupported : List Row :=
  [ ⟨.op3 opFence 0b000#3, fieldsI .fence⟩,
    ⟨.op3 opFence 0b001#3, fieldsI .fencei⟩,
    ⟨.whole 0x00000073#32, fun _ => .ecall⟩,
    ⟨.whole 0x00100073#32, fun _ => .ebreak⟩ ]

/-- The opcode map, in the order of opcode_table.json. -/
def rows : List Row := rowsControl ++ (rowsMemory ++ (rowsImm ++ (rowsReg ++ rowsUnsupported)))

/-! ## Decoding (spec 30 R60, R61) -/

/-- Why a word is not an instruction of the build: the steps of spec 30 R60 that refuse it. -/
inductive Reject where
  /-- Step 2: no row has the word's fixed bits (spec 30 R61; 48 R148, R149). -/
  | noRow
  /-- Step 3: a sub-word load or store in a build without them (spec 48 R150). -/
  | subwordAbsent
  /-- Step 4: a branch or `jal` whose byte offset is not a whole number of instructions (spec 30 R56, R58). -/
  | offsetNotWhole
  deriving DecidableEq, Repr

/-- What the decoder answers. -/
inductive Decoded where
  | instr (i : Instr)
  | reject (r : Reject)
  deriving DecidableEq, Repr

/-- The byte offset the word carries for this instruction has bit 1 set (spec 30 R60 step 4). -/
def offsetNotWhole (w : Word) : Instr → Bool
  | .beq _ _ _ | .bne _ _ _ | .blt _ _ _ | .bge _ _ _ | .bltu _ _ _ | .bgeu _ _ _ => (immBOf w)[1]
  | .jal _ _ => (immJOf w)[1]
  | .lui _ _ | .auipc _ _ | .jalr _ _ _ => false
  | .lb _ _ _ | .lh _ _ _ | .lw _ _ _ | .lbu _ _ _ | .lhu _ _ _ | .sb _ _ _ | .sh _ _ _ | .sw _ _ _ => false
  | .addi _ _ _ | .slti _ _ _ | .sltiu _ _ _ | .xori _ _ _ | .ori _ _ _ | .andi _ _ _ => false
  | .slli _ _ _ | .srli _ _ _ | .srai _ _ _ => false
  | .add _ _ _ | .sub _ _ _ | .sll _ _ _ | .slt _ _ _ | .sltu _ _ _ | .xor _ _ _ | .srl _ _ _ | .sra _ _ _
  | .or _ _ _ | .and _ _ _ => false
  | .fence _ _ _ | .fencei _ _ _ | .ecall | .ebreak => false

/-- The row of a word, if there is one: step 1 of spec 30 R60. -/
def rowOf (w : Word) : Option Row := rows.find? fun r => r.pattern.fits w

/-- Decode a word in build `c`: the five steps of spec 30 R60. -/
def decode (c : Config) (w : Word) : Decoded :=
  match rowOf w with
  | none => .reject .noRow
  | some r =>
    if !(r.build w).wellFormed c then .reject .subwordAbsent
    else if offsetNotWhole w (r.build w) then .reject .offsetNotWhole
    else .instr (r.build w)

/-! ## Encoding (spec 30 R48 to R53, R60, R67) -/

/-- R format (spec 30 R48). -/
def wordR (f7 : BitVec 7) (rs2 rs1 : RegIdx) (f3 : BitVec 3) (rd : RegIdx) (op : BitVec 7) : Word :=
  f7 ++ rs2 ++ rs1 ++ f3 ++ rd ++ op
/-- I format (spec 30 R49). -/
def wordI (imm : BitVec 12) (rs1 : RegIdx) (f3 : BitVec 3) (rd : RegIdx) (op : BitVec 7) : Word :=
  imm ++ rs1 ++ f3 ++ rd ++ op
/-- S format (spec 30 R50). -/
def wordS (imm : BitVec 12) (rs2 rs1 : RegIdx) (f3 : BitVec 3) (op : BitVec 7) : Word :=
  imm.extractLsb' 5 7 ++ rs2 ++ rs1 ++ f3 ++ imm.extractLsb' 0 5 ++ op
/-- The 13-bit byte offset of `off` instructions: `4 * off` (spec 30 R67). -/
def byteOffB (off : BitVec 11) : BitVec 13 := off ++ 0#2
/-- The 21-bit byte offset of `off` instructions: `4 * off` (spec 30 R67). -/
def byteOffJ (off : BitVec 19) : BitVec 21 := off ++ 0#2
/-- B format (spec 30 R51), `b` the byte offset. -/
def wordB (b : BitVec 13) (rs2 rs1 : RegIdx) (f3 : BitVec 3) (op : BitVec 7) : Word :=
  b.extractLsb' 12 1 ++ b.extractLsb' 5 6 ++ rs2 ++ rs1 ++ f3 ++ b.extractLsb' 1 4 ++ b.extractLsb' 11 1 ++ op
/-- U format (spec 30 R52). -/
def wordU (imm20 : BitVec 20) (rd : RegIdx) (op : BitVec 7) : Word := imm20 ++ rd ++ op
/-- J format (spec 30 R53), `j` the byte offset. -/
def wordJ (j : BitVec 21) (rd : RegIdx) (op : BitVec 7) : Word :=
  j.extractLsb' 20 1 ++ j.extractLsb' 1 10 ++ j.extractLsb' 11 1 ++ j.extractLsb' 12 8 ++ rd ++ op

/-- The word of an instruction (spec 30 R60). -/
def encode : Instr → Word
  | .lui rd imm20 => wordU imm20 rd opLui
  | .auipc rd imm20 => wordU imm20 rd opAuipc
  | .jal rd off => wordJ (byteOffJ off) rd opJal
  | .jalr rd rs1 imm => wordI imm rs1 0b000#3 rd opJalr
  | .beq rs1 rs2 off => wordB (byteOffB off) rs2 rs1 0b000#3 opBranch
  | .bne rs1 rs2 off => wordB (byteOffB off) rs2 rs1 0b001#3 opBranch
  | .blt rs1 rs2 off => wordB (byteOffB off) rs2 rs1 0b100#3 opBranch
  | .bge rs1 rs2 off => wordB (byteOffB off) rs2 rs1 0b101#3 opBranch
  | .bltu rs1 rs2 off => wordB (byteOffB off) rs2 rs1 0b110#3 opBranch
  | .bgeu rs1 rs2 off => wordB (byteOffB off) rs2 rs1 0b111#3 opBranch
  | .lb rd rs1 imm => wordI imm rs1 0b000#3 rd opLoad
  | .lh rd rs1 imm => wordI imm rs1 0b001#3 rd opLoad
  | .lw rd rs1 imm => wordI imm rs1 0b010#3 rd opLoad
  | .lbu rd rs1 imm => wordI imm rs1 0b100#3 rd opLoad
  | .lhu rd rs1 imm => wordI imm rs1 0b101#3 rd opLoad
  | .sb rs2 rs1 imm => wordS imm rs2 rs1 0b000#3 opStore
  | .sh rs2 rs1 imm => wordS imm rs2 rs1 0b001#3 opStore
  | .sw rs2 rs1 imm => wordS imm rs2 rs1 0b010#3 opStore
  | .addi rd rs1 imm => wordI imm rs1 0b000#3 rd opImm
  | .slti rd rs1 imm => wordI imm rs1 0b010#3 rd opImm
  | .sltiu rd rs1 imm => wordI imm rs1 0b011#3 rd opImm
  | .xori rd rs1 imm => wordI imm rs1 0b100#3 rd opImm
  | .ori rd rs1 imm => wordI imm rs1 0b110#3 rd opImm
  | .andi rd rs1 imm => wordI imm rs1 0b111#3 rd opImm
  | .slli rd rs1 shamt => wordR 0b0000000#7 shamt rs1 0b001#3 rd opImm
  | .srli rd rs1 shamt => wordR 0b0000000#7 shamt rs1 0b101#3 rd opImm
  | .srai rd rs1 shamt => wordR 0b0100000#7 shamt rs1 0b101#3 rd opImm
  | .add rd rs1 rs2 => wordR 0b0000000#7 rs2 rs1 0b000#3 rd opReg
  | .sub rd rs1 rs2 => wordR 0b0100000#7 rs2 rs1 0b000#3 rd opReg
  | .sll rd rs1 rs2 => wordR 0b0000000#7 rs2 rs1 0b001#3 rd opReg
  | .slt rd rs1 rs2 => wordR 0b0000000#7 rs2 rs1 0b010#3 rd opReg
  | .sltu rd rs1 rs2 => wordR 0b0000000#7 rs2 rs1 0b011#3 rd opReg
  | .xor rd rs1 rs2 => wordR 0b0000000#7 rs2 rs1 0b100#3 rd opReg
  | .srl rd rs1 rs2 => wordR 0b0000000#7 rs2 rs1 0b101#3 rd opReg
  | .sra rd rs1 rs2 => wordR 0b0100000#7 rs2 rs1 0b101#3 rd opReg
  | .or rd rs1 rs2 => wordR 0b0000000#7 rs2 rs1 0b110#3 rd opReg
  | .and rd rs1 rs2 => wordR 0b0000000#7 rs2 rs1 0b111#3 rd opReg
  | .fence rd rs1 imm => wordI imm rs1 0b000#3 rd opFence
  | .fencei rd rs1 imm => wordI imm rs1 0b001#3 rd opFence
  | .ecall => 0x00000073#32
  | .ebreak => 0x00100073#32

/-! ## The host's question about a row of the opcode table -/

/-- The word the host numbers as `w` in `nbits` bits: bits above `nbits` are 0, and the program store takes whole words
(spec 30 R46; 20 R36). -/
def tableWord (nbits w : Nat) : Word := BitVec.ofNat 32 (w % 2 ^ nbits)

/-- What the decoder of the power-on build reads from the instruction whose bits are `w`. -/
def decodeTableWord (nbits w : Nat) : Option Instr :=
  match decode Config.powerOn (tableWord nbits w) with
  | .instr i => some i
  | .reject _ => none

end Sys2Proof
end

