-- ==== Sys2Proof/Machine/Ops.lean ====
section
/-! DEFINITION. The named operations over registers, memory, program store, error record and host interface. -/

namespace Sys2Proof.Machine

/-! ## Register-file arbiter (spec 10 R10 to R12; 40 R75, R76) -/

/-- Read `x[i]`; `x[0]` is always 0 (spec 10 R11). -/
def State.readReg (s : State) (i : RegIdx) : Word :=
  if i = 0#5 then 0#32 else s.regs[i.toNat]'i.isLt

/-- Write `x[i]`; a write to `x[0]` is discarded (spec 10 R12). -/
def State.writeReg (s : State) (i : RegIdx) (v : Word) : State :=
  { s with regs := if i = 0#5 then s.regs else s.regs.set i.toNat v i.isLt }

/-! ## Byte lanes of the data memory (log entry 3) -/

/-- The lane at `a`. -/
def Memory.readByte : Memory → Nat → Byte
  | [], _ => Memory.unlisted
  | (b, v) :: m, a => if b = a then v else Memory.readByte m a

/-- Put `v` in front of `m` as the lane at `a`, or nothing where `v` is what an unlisted lane reads as. -/
def Memory.consByte (a : Nat) (v : Byte) (m : Memory) : Memory :=
  if v = Memory.unlisted then m else (a, v) :: m

/-- Set the lane at `a`, keeping addresses rising and unlisted values out. -/
def Memory.writeByte : Memory → Nat → Byte → Memory
  | [], a, v => Memory.consByte a v []
  | (b, w) :: m, a, v =>
    if a < b then Memory.consByte a v ((b, w) :: m)
    else if a = b then Memory.consByte a v m
    else (b, w) :: Memory.writeByte m a v

/-- Every address of `m` is above `a`, addresses rise, and no cell holds the unlisted value. -/
def Memory.wfAbove (a : Nat) : Memory → Bool
  | [] => true
  | (b, v) :: m => decide (a < b) && decide (v ≠ Memory.unlisted) && Memory.wfAbove b m

/-- The canonical form of memory: equal memories are equal lists. -/
def Memory.wf : Memory → Bool
  | [] => true
  | (b, v) :: m => decide (v ≠ Memory.unlisted) && Memory.wfAbove b m

/-! ## Words of the data memory (spec 20 R30 to R36) -/

/-- The word `M[k]`. -/
def Memory.readWord (m : Memory) (k : Nat) : Word :=
  m.readByte (4 * k + 3) ++ m.readByte (4 * k + 2) ++ m.readByte (4 * k + 1) ++ m.readByte (4 * k)

/-- Replace bits 7 to 0 of `M[k]` by those of `v` (spec 20 R35, n = 1). -/
def Memory.writeLow8 (m : Memory) (k : Nat) (v : Word) : Memory :=
  m.writeByte (4 * k) (v.extractLsb' 0 8)

/-- Replace bits 15 to 0 of `M[k]` by those of `v` (spec 20 R35, n = 2). -/
def Memory.writeLow16 (m : Memory) (k : Nat) (v : Word) : Memory :=
  (m.writeLow8 k v).writeByte (4 * k + 1) (v.extractLsb' 8 8)

/-- Replace `M[k]` by `v` (spec 20 R35, n = 4). -/
def Memory.writeWord (m : Memory) (k : Nat) (v : Word) : Memory :=
  ((m.writeLow16 k v).writeByte (4 * k + 2) (v.extractLsb' 16 8)).writeByte (4 * k + 3) (v.extractLsb' 24 8)

/-- `a` is a word index of the data memory (spec 20 R32). -/
def State.inRange (s : State) (a : Word) : Bool := decide (a.toNat < s.cfg.memWords)

/-- The addressed word, or 0 out of range (spec 20 R33; first line of R34). -/
def State.wordAt (s : State) (a : Word) : Word := if s.inRange a then s.mem.readWord a.toNat else 0#32

/-- `MemRead(a, 4)` (spec 20 R34). -/
def State.memRead4 (s : State) (a : Word) : Word := s.wordAt a
/-- `MemRead(a, 2)`: the low half of the addressed word (spec 20 R34, R36). -/
def State.memRead2 (s : State) (a : Word) : BitVec 16 := (s.wordAt a).extractLsb' 0 16
/-- `MemRead(a, 1)`: the low byte of the addressed word (spec 20 R34, R36). -/
def State.memRead1 (s : State) (a : Word) : BitVec 8 := (s.wordAt a).extractLsb' 0 8

/-- `MemWrite(a, 4, v)` (spec 20 R35); nothing out of range (R33). -/
def State.memWrite4 (s : State) (a v : Word) : State :=
  { s with mem := if s.inRange a then s.mem.writeWord a.toNat v else s.mem }
/-- `MemWrite(a, 2, v)` (spec 20 R35). -/
def State.memWrite2 (s : State) (a v : Word) : State :=
  { s with mem := if s.inRange a then s.mem.writeLow16 a.toNat v else s.mem }
/-- `MemWrite(a, 1, v)` (spec 20 R35). -/
def State.memWrite1 (s : State) (a v : Word) : State :=
  { s with mem := if s.inRange a then s.mem.writeLow8 a.toNat v else s.mem }

/-! ## Status and fetch (spec 10 R21; 40 R72) -/

/-- The status output (spec 10 R21). -/
def State.status (s : State) : Status :=
  if s.err ≠ none then .error else if s.im.length ≤ s.pc.toNat then .halted else .ready

/-- `IM[pc]`. Ready means that the index is in the program (spec 40 R72); the value outside it is never used. -/
def State.fetchWord (s : State) : Word := s.im.getD s.pc.toNat 0#32

/-! ## Errors of a step (spec 60) -/

/-- The code of a refused word (spec 30 R60; 60 R153, R154). -/
def rejectCode : Reject → ErrCode
  | .noRow => .decodeError
  | .subwordAbsent => .decodeError
  | .offsetNotWhole => .operandError

/-- A failed step: exactly `err <- (code, pc, w)` (spec 60 R156). -/
def State.raise (s : State) (code : ErrCode) (w : Word) : State :=
  { s with err := some { code := code, pc := s.pc, instr := w } }

/-- `t` in a build with sub-word accesses, else the DecodeError of spec 48 R150 for the word `w`. -/
def State.subwordOnly (s : State) (w : Word) (t : State) : State :=
  if s.cfg.subwordLs then t else s.raise .decodeError w

/-! ## The end of a successful step (spec 40 R89, R90) -/

/-- Commit the snapshot, the multiplexer output and the next PC (spec 40 R74 step 5, R88 to R90). -/
def State.retire (s : State) (n : Snapshot) (taken : Bool) (pc' : Word) : State :=
  { s with snap := some n, taken := taken, pc := pc' }

/-! ## Host operations (spec 70 R171, R172, R178). There is no return from an error; these alone clear it (spec 60 R162). -/

/-- `reset`: everything but the program is zero-filled (spec 70 R171). -/
def State.hostReset (s : State) : State := State.initial s.cfg s.im

/-- `load(program)`: the program store is replaced and everything else is as after `reset` (spec 70 R172). -/
def State.hostLoad (s : State) (program : List Word) : State := State.initial s.cfg program

/-- The 3-bit code of spec 60 R155. -/
def ErrCode.code : ErrCode → BitVec 3
  | .decodeError => 1#3
  | .operandError => 2#3
  | .outOfRangeAddress => 3#3
  | .misalignedAccess => 4#3

/-- The error code output: 0 where there is no record (spec 60 R155). -/
def State.errCode (s : State) : BitVec 3 :=
  match s.err with
  | none => 0#3
  | some e => e.code.code

/-- The code of a class on the 3-bit `type` bus (spec 40 R83). -/
def InstrClass.code : InstrClass → BitVec 3
  | .r => 0#3 | .i => 1#3 | .load => 2#3 | .store => 3#3 | .branch => 4#3 | .jump => 5#3 | .upper => 6#3

/-- The code of an operation on the 4-bit `alu_op` bus (spec 40 R84). -/
def AluOp.code : AluOp → BitVec 4
  | .add => 0#4 | .sub => 1#4 | .and => 2#4 | .or => 3#4 | .xor => 4#4
  | .sll => 5#4 | .srl => 6#4 | .sra => 7#4 | .slt => 8#4 | .sltu => 9#4

/-- The valid bit of the snapshot, `snap_valid` (spec 10 R20). -/
def State.snapValid (s : State) : Bool := s.snap.isSome

/-- `L`, the length of the program (spec 10 R17). -/
def State.progLen (s : State) : Nat := s.im.length

/-- What the host reads between steps (spec 70 R178); `mem` is the full memory snapshot. -/
structure HostView where
  pc : Word
  regs : List Word
  mem : List Word
  snap : Option Snapshot
  taken : Bool
  status : Status
  err : Option ErrRecord
  deriving DecidableEq, Repr

/-- The host's reads, all without effect (spec 70 R178). -/
def State.view (s : State) : HostView :=
  { pc := s.pc
    regs := (List.range 32).map fun i => s.readReg (BitVec.ofNat 5 i)
    mem := (List.range s.cfg.memWords).map fun k => s.mem.readWord k
    snap := s.snap
    taken := s.taken
    status := s.status
    err := s.err }

/-- Place `w` where the next step fetches (spec 40 R72): element `pc` of the program store, which grows to hold it, and no
error record, since a step in Error runs nothing (R71). It stands for the host's `load` (log entry 4). -/
def State.placeWord (s : State) (w : Word) : State :=
  { s with
    im := s.im.take s.pc.toNat ++ List.replicate (s.pc.toNat - s.im.length) 0#32 ++ w :: s.im.drop (s.pc.toNat + 1)
    err := none }

end Sys2Proof.Machine
end

