-- ==== Sys2Proof/Machine/Operands.lean ====
section
/-! DEFINITION. The operand forms: immediates as 32-bit values and the effective address (spec 30 R54 to R59; 20 R31). -/

namespace Sys2Proof.Machine

/-- `sext_12`: the I immediate (spec 30 R54) and the S immediate (R55). -/
def sext12 (imm : BitVec 12) : Word := imm.signExtend 32

/-- `zext_5(shamt)` (spec 30 R59). -/
def shamtValue (shamt : BitVec 5) : Word := shamt.setWidth 32

/-- `immU = imm20 << 12`: the field above twelve zeros (spec 30 R57). -/
def upperValue (imm20 : BitVec 20) : Word := imm20 ++ 0#12

/-- offB as a 32-bit count of instructions (spec 30 R56). -/
def branchOffset (off : BitVec 11) : Word := off.signExtend 32

/-- offJ as a 32-bit count of instructions (spec 30 R58). -/
def jumpOffset (off : BitVec 19) : Word := off.signExtend 32

/-- `EA = x[rs1] + sext_12(imm)`, a word index (spec 20 R31). -/
def State.effAddr (s : State) (rs1 : RegIdx) (imm : BitVec 12) : Word := s.readReg rs1 + sext12 imm

end Sys2Proof.Machine
end

