-- ==== Sys2Proof/Machine/Branch.lean ====
section
/-! DEFINITION. Class Branch: `beq bne blt bge bltu bgeu` (spec 45 R132 to R138). -/

namespace Sys2Proof.Machine

/-- The effect common to branches (spec 45 R132): the PC moves by `off` instructions if the relation holds, else by one. -/
def branchOp (rel : BranchRel) (rs1 rs2 : RegIdx) (off : BitVec 11) (s : State) : State :=
  let cond := branchCond rel (s.readReg rs1) (s.readReg rs2)
  s.retire (controlSignals .branch rel.aluOp) cond (if cond then s.pc + branchOffset off else s.pc + 1#32)

/-- Spec 45 R133. -/
def execBeq (rs1 rs2 : RegIdx) (off : BitVec 11) (s : State) : Result := .next (branchOp .eq rs1 rs2 off s)
/-- Spec 45 R134. -/
def execBne (rs1 rs2 : RegIdx) (off : BitVec 11) (s : State) : Result := .next (branchOp .ne rs1 rs2 off s)
/-- Spec 45 R135. -/
def execBlt (rs1 rs2 : RegIdx) (off : BitVec 11) (s : State) : Result := .next (branchOp .lt rs1 rs2 off s)
/-- Spec 45 R136. -/
def execBge (rs1 rs2 : RegIdx) (off : BitVec 11) (s : State) : Result := .next (branchOp .ge rs1 rs2 off s)
/-- Spec 45 R137. -/
def execBltu (rs1 rs2 : RegIdx) (off : BitVec 11) (s : State) : Result := .next (branchOp .ltu rs1 rs2 off s)
/-- Spec 45 R138. -/
def execBgeu (rs1 rs2 : RegIdx) (off : BitVec 11) (s : State) : Result := .next (branchOp .geu rs1 rs2 off s)

end Sys2Proof.Machine
end

