-- ==== Sys2Proof/Machine/Alu.lean ====
section
/-! DEFINITION. The ALU (spec 40 R79, R81). -/

namespace Sys2Proof.Machine

/-- The shift count `b & 0x1F` (spec 40 R79). -/
def shiftCount (b : Word) : Nat := (b &&& 0x1F#32).toNat

/-- A truth value as the 32-bit number 1 or 0 (spec 40 R79). -/
def boolWord (p : Bool) : Word := if p then 1#32 else 0#32

/-- The ten operations of spec 40 R79. -/
def alu : AluOp → Word → Word → Word
  | .add, a, b => a + b
  | .sub, a, b => a - b
  | .and, a, b => a &&& b
  | .or, a, b => a ||| b
  | .xor, a, b => a ^^^ b
  | .sll, a, b => a <<< shiftCount b
  | .srl, a, b => a >>> shiftCount b
  | .sra, a, b => a.sshiftRight (shiftCount b)
  | .slt, a, b => boolWord (decide (a.toInt < b.toInt))
  | .sltu, a, b => boolWord (decide (a.toNat < b.toNat))

end Sys2Proof.Machine
end

