-- ==== Sys2Proof/Machine/IType.lean ====
section
/-! DEFINITION. Class I: `addi andi ori xori slti sltiu slli srli srai` (spec 42 R111 to R120). -/

namespace Sys2Proof.Machine

/-- The effect common to class I, `b` the extended immediate or shift amount (spec 42 R111). -/
def immOp (op : AluOp) (rd rs1 : RegIdx) (b : Word) (s : State) : State :=
  (s.writeReg rd (alu op (s.readReg rs1) b)).retire (controlSignals .i op) false (s.pc + 1#32)

/-- Spec 42 R112. -/
def execAddi (rd rs1 : RegIdx) (imm : BitVec 12) (s : State) : Result := .next (immOp .add rd rs1 (sext12 imm) s)
/-- Spec 42 R113. -/
def execAndi (rd rs1 : RegIdx) (imm : BitVec 12) (s : State) : Result := .next (immOp .and rd rs1 (sext12 imm) s)
/-- Spec 42 R114. -/
def execOri (rd rs1 : RegIdx) (imm : BitVec 12) (s : State) : Result := .next (immOp .or rd rs1 (sext12 imm) s)
/-- Spec 42 R115. -/
def execXori (rd rs1 : RegIdx) (imm : BitVec 12) (s : State) : Result := .next (immOp .xor rd rs1 (sext12 imm) s)
/-- Spec 42 R116. -/
def execSlti (rd rs1 : RegIdx) (imm : BitVec 12) (s : State) : Result := .next (immOp .slt rd rs1 (sext12 imm) s)
/-- Spec 42 R117: the immediate is sign-extended and then compared unsigned. -/
def execSltiu (rd rs1 : RegIdx) (imm : BitVec 12) (s : State) : Result := .next (immOp .sltu rd rs1 (sext12 imm) s)
/-- Spec 42 R118. -/
def execSlli (rd rs1 : RegIdx) (shamt : BitVec 5) (s : State) : Result := .next (immOp .sll rd rs1 (shamtValue shamt) s)
/-- Spec 42 R119. -/
def execSrli (rd rs1 : RegIdx) (shamt : BitVec 5) (s : State) : Result := .next (immOp .srl rd rs1 (shamtValue shamt) s)
/-- Spec 42 R120. -/
def execSrai (rd rs1 : RegIdx) (shamt : BitVec 5) (s : State) : Result := .next (immOp .sra rd rs1 (shamtValue shamt) s)

end Sys2Proof.Machine
end

