-- ==== Sys2Proof/Machine/Jump.lean ====
section
/-! DEFINITION. Class Jump: `jal jalr` (spec 46 R139, R140). -/

namespace Sys2Proof.Machine

/-- The effect common to jumps: the link is the index of the next instruction, `target` is an instruction index computed
from the old state (spec 46 R139, R140). -/
def jumpOp (rd : RegIdx) (target : Word) (s : State) : State :=
  (s.writeReg rd (s.pc + 1#32)).retire (controlSignals .jump .add) true target

/-- Spec 46 R139. -/
def execJal (rd : RegIdx) (off : BitVec 19) (s : State) : Result := .next (jumpOp rd (s.pc + jumpOffset off) s)
/-- Spec 46 R140: bit 0 of the target is kept. -/
def execJalr (rd rs1 : RegIdx) (imm : BitVec 12) (s : State) : Result :=
  .next (jumpOp rd (s.readReg rs1 + sext12 imm) s)

end Sys2Proof.Machine
end

