-- ==== Sys2Proof/Machine/Load.lean ====
section
/-! DEFINITION. Class Load: `lw`, and `lh lb lhu lbu` in a build with SUBWORD_LS (spec 43 R121 to R126; 48 R150). -/

namespace Sys2Proof.Machine

/-- The effect common to loads, `v` the extended value read at EA (spec 43 R121). -/
def loadOp (rd : RegIdx) (v : Word) (s : State) : State :=
  (s.writeReg rd v).retire (controlSignals .load .add) false (s.pc + 1#32)

/-- Spec 43 R122. -/
def execLw (rd rs1 : RegIdx) (imm : BitVec 12) (s : State) : Result :=
  .next (loadOp rd (s.memRead4 (s.effAddr rs1 imm)) s)
/-- Spec 43 R123; 48 R150. -/
def execLh (rd rs1 : RegIdx) (imm : BitVec 12) (s : State) : Result :=
  .next (s.subwordOnly (encode (.lh rd rs1 imm)) (loadOp rd ((s.memRead2 (s.effAddr rs1 imm)).signExtend 32) s))
/-- Spec 43 R124; 48 R150. -/
def execLb (rd rs1 : RegIdx) (imm : BitVec 12) (s : State) : Result :=
  .next (s.subwordOnly (encode (.lb rd rs1 imm)) (loadOp rd ((s.memRead1 (s.effAddr rs1 imm)).signExtend 32) s))
/-- Spec 43 R125; 48 R150. -/
def execLhu (rd rs1 : RegIdx) (imm : BitVec 12) (s : State) : Result :=
  .next (s.subwordOnly (encode (.lhu rd rs1 imm)) (loadOp rd ((s.memRead2 (s.effAddr rs1 imm)).setWidth 32) s))
/-- Spec 43 R126; 48 R150. -/
def execLbu (rd rs1 : RegIdx) (imm : BitVec 12) (s : State) : Result :=
  .next (s.subwordOnly (encode (.lbu rd rs1 imm)) (loadOp rd ((s.memRead1 (s.effAddr rs1 imm)).setWidth 32) s))

end Sys2Proof.Machine
end

