-- ==== Sys2Proof/Machine/RType.lean ====
section
/-! DEFINITION. Class R: `add sub and or xor sll srl sra slt sltu` (spec 41 R100 to R110). -/

namespace Sys2Proof.Machine

/-- The effect common to class R (spec 41 R100): both operands are read before `x[rd]` is written. -/
def regOp (op : AluOp) (rd rs1 rs2 : RegIdx) (s : State) : State :=
  (s.writeReg rd (alu op (s.readReg rs1) (s.readReg rs2))).retire (controlSignals .r op) false (s.pc + 1#32)

/-- Spec 41 R101. -/
def execAdd (rd rs1 rs2 : RegIdx) (s : State) : Result := .next (regOp .add rd rs1 rs2 s)
/-- Spec 41 R102. -/
def execSub (rd rs1 rs2 : RegIdx) (s : State) : Result := .next (regOp .sub rd rs1 rs2 s)
/-- Spec 41 R103. -/
def execAnd (rd rs1 rs2 : RegIdx) (s : State) : Result := .next (regOp .and rd rs1 rs2 s)
/-- Spec 41 R104. -/
def execOr (rd rs1 rs2 : RegIdx) (s : State) : Result := .next (regOp .or rd rs1 rs2 s)
/-- Spec 41 R105. -/
def execXor (rd rs1 rs2 : RegIdx) (s : State) : Result := .next (regOp .xor rd rs1 rs2 s)
/-- Spec 41 R106. -/
def execSll (rd rs1 rs2 : RegIdx) (s : State) : Result := .next (regOp .sll rd rs1 rs2 s)
/-- Spec 41 R107. -/
def execSrl (rd rs1 rs2 : RegIdx) (s : State) : Result := .next (regOp .srl rd rs1 rs2 s)
/-- Spec 41 R108. -/
def execSra (rd rs1 rs2 : RegIdx) (s : State) : Result := .next (regOp .sra rd rs1 rs2 s)
/-- Spec 41 R109. -/
def execSlt (rd rs1 rs2 : RegIdx) (s : State) : Result := .next (regOp .slt rd rs1 rs2 s)
/-- Spec 41 R110. -/
def execSltu (rd rs1 rs2 : RegIdx) (s : State) : Result := .next (regOp .sltu rd rs1 rs2 s)

end Sys2Proof.Machine
end

