-- ==== Sys2Proof/Machine/Store.lean ====
section
/-! DEFINITION. Class Store: `sw`, and `sh sb` in a build with SUBWORD_LS (spec 44 R128 to R131; 48 R150). -/

namespace Sys2Proof.Machine

/-- The end common to stores, `t` the state after `MemWrite` (spec 44 R128). -/
def storeOp (t : State) : State := t.retire (controlSignals .store .add) false (t.pc + 1#32)

/-- Spec 44 R129. -/
def execSw (rs2 rs1 : RegIdx) (imm : BitVec 12) (s : State) : Result :=
  .next (storeOp (s.memWrite4 (s.effAddr rs1 imm) (s.readReg rs2)))
/-- Spec 44 R130; 48 R150. -/
def execSh (rs2 rs1 : RegIdx) (imm : BitVec 12) (s : State) : Result :=
  .next (s.subwordOnly (encode (.sh rs2 rs1 imm)) (storeOp (s.memWrite2 (s.effAddr rs1 imm) (s.readReg rs2))))
/-- Spec 44 R131; 48 R150. -/
def execSb (rs2 rs1 : RegIdx) (imm : BitVec 12) (s : State) : Result :=
  .next (s.subwordOnly (encode (.sb rs2 rs1 imm)) (storeOp (s.memWrite1 (s.effAddr rs1 imm) (s.readReg rs2))))

end Sys2Proof.Machine
end

