-- ==== Sys2Proof/Machine/Unsupported.lean ====
section
/-! DEFINITION. The named instructions the hardware does not implement: the step fails with DecodeError and changes nothing
else (spec 48 R145 to R147; 60 R156). -/

namespace Sys2Proof.Machine

/-- Spec 48 R145: not a no-op. -/
def execFence (rd rs1 : RegIdx) (imm : BitVec 12) (s : State) : Result :=
  .next (s.raise .decodeError (encode (.fence rd rs1 imm)))
/-- Spec 48 R145. -/
def execFencei (rd rs1 : RegIdx) (imm : BitVec 12) (s : State) : Result :=
  .next (s.raise .decodeError (encode (.fencei rd rs1 imm)))
/-- Spec 48 R146: it neither calls nor halts. -/
def execEcall (s : State) : Result := .next (s.raise .decodeError (encode .ecall))
/-- Spec 48 R147. -/
def execEbreak (s : State) : Result := .next (s.raise .decodeError (encode .ebreak))

end Sys2Proof.Machine
end

