-- ==== Sys2Proof/Machine/Upper.lean ====
section
/-! DEFINITION. Class Upper-immediate: `lui auipc` (spec 47 R142, R143). -/

namespace Sys2Proof.Machine

/-- The effect common to the class, `v` the value for `x[rd]` (spec 47 R142, R143). -/
def upperOp (rd : RegIdx) (v : Word) (s : State) : State :=
  (s.writeReg rd v).retire (controlSignals .upper .add) false (s.pc + 1#32)

/-- Spec 47 R142. -/
def execLui (rd : RegIdx) (imm20 : BitVec 20) (s : State) : Result := .next (upperOp rd (upperValue imm20) s)
/-- Spec 47 R143: `pc` is the index of the `auipc` itself. -/
def execAuipc (rd : RegIdx) (imm20 : BitVec 20) (s : State) : Result := .next (upperOp rd (s.pc + upperValue imm20) s)

end Sys2Proof.Machine
end

