-- ==== Sys2Proof/Machine/Step.lean ====
section
/-! DEFINITION. One step of the machine (spec 40 R91). -/

namespace Sys2Proof.Machine

/-- A step (spec 40 R91): a no-op unless Ready (R71); else fetch (R72), decode (R73), and either the instruction's effect or
a failed step (spec 60 R156). -/
def step (s : State) : Host.Outcome State Fault Refusal :=
  match s.status with
  | .halted => .next s
  | .error => .next s
  | .ready =>
    match decode s.cfg s.fetchWord with
    | .instr i => exec i s
    | .reject r => .next (s.raise (rejectCode r) s.fetchWord)

/-- `s` with the instruction of the opcode table whose bits are `w` placed where the next step fetches (log entry 4). -/
def State.withFetchWord (s : State) (nbits w : Nat) : State := s.placeWord (tableWord nbits w)

end Sys2Proof.Machine
end

