-- ==== Sys2Proof/Machine/Datapath.lean ====
section
/-! DEFINITION. The functional blocks of spec 40 as one datapath over the instruction word: the operand multiplexers (R75,
R77, R78), the control-signal encoder (R80, R82), the write-back multiplexer (R86), the branch/jump multiplexer (R88) and
the PC sequencer (R89). The meanings are written from the instruction rules of spec 41 to 47; that the two agree
(spec 40 R85) is a statement. -/

namespace Sys2Proof.Machine

/-- The class and the ALU operation of an instruction (spec 40 R80, R82); none for the four unsupported ones. -/
def signals : Instr → Option (InstrClass × AluOp)
  | .lui _ _ | .auipc _ _ => some (.upper, .add)
  | .jal _ _ | .jalr _ _ _ => some (.jump, .add)
  | .beq _ _ _ | .bne _ _ _ => some (.branch, .sub)
  | .blt _ _ _ | .bge _ _ _ => some (.branch, .slt)
  | .bltu _ _ _ | .bgeu _ _ _ => some (.branch, .sltu)
  | .lb _ _ _ | .lh _ _ _ | .lw _ _ _ | .lbu _ _ _ | .lhu _ _ _ => some (.load, .add)
  | .sb _ _ _ | .sh _ _ _ | .sw _ _ _ => some (.store, .add)
  | .addi _ _ _ => some (.i, .add)
  | .slti _ _ _ => some (.i, .slt)
  | .sltiu _ _ _ => some (.i, .sltu)
  | .xori _ _ _ => some (.i, .xor)
  | .ori _ _ _ => some (.i, .or)
  | .andi _ _ _ => some (.i, .and)
  | .slli _ _ _ => some (.i, .sll)
  | .srli _ _ _ => some (.i, .srl)
  | .srai _ _ _ => some (.i, .sra)
  | .add _ _ _ => some (.r, .add)
  | .sub _ _ _ => some (.r, .sub)
  | .sll _ _ _ => some (.r, .sll)
  | .slt _ _ _ => some (.r, .slt)
  | .sltu _ _ _ => some (.r, .sltu)
  | .xor _ _ _ => some (.r, .xor)
  | .srl _ _ _ => some (.r, .srl)
  | .sra _ _ _ => some (.r, .sra)
  | .or _ _ _ => some (.r, .or)
  | .and _ _ _ => some (.r, .and)
  | .fence _ _ _ | .fencei _ _ _ | .ecall | .ebreak => none

/-- The instruction is one of the 37 the build executes (spec 30 R60; 48 R145 to R147, R150). -/
def Supported (c : Config) (i : Instr) : Bool := (signals i).isSome && i.wellFormed c

/-- ALU operand A (spec 40 R77). -/
def operandA (i : Instr) (s : State) : Word :=
  match i with
  | .lui _ _ => 0#32
  | .jal _ _ | .auipc _ _ => s.pc
  | .jalr _ _ _
  | .beq _ _ _ | .bne _ _ _ | .blt _ _ _ | .bge _ _ _ | .bltu _ _ _ | .bgeu _ _ _
  | .lb _ _ _ | .lh _ _ _ | .lw _ _ _ | .lbu _ _ _ | .lhu _ _ _
  | .sb _ _ _ | .sh _ _ _ | .sw _ _ _
  | .addi _ _ _ | .slti _ _ _ | .sltiu _ _ _ | .xori _ _ _ | .ori _ _ _ | .andi _ _ _
  | .slli _ _ _ | .srli _ _ _ | .srai _ _ _
  | .add _ _ _ | .sub _ _ _ | .sll _ _ _ | .slt _ _ _ | .sltu _ _ _ | .xor _ _ _ | .srl _ _ _ | .sra _ _ _
  | .or _ _ _ | .and _ _ _
  | .fence _ _ _ | .fencei _ _ _ | .ecall | .ebreak => s.readReg (rs1Of (encode i))

/-- The immediate of the instruction's word (spec 40 R78; 0 for a word that has none). -/
def immediate (i : Instr) : Word :=
  let w := encode i
  match i with
  | .lui _ _ | .auipc _ _ => upperValue (imm20Of w)
  | .jal _ _ => jumpOffset (offJOf w)
  | .slli _ _ _ | .srli _ _ _ | .srai _ _ _ => shamtValue (rs2Of w)
  | .sb _ _ _ | .sh _ _ _ | .sw _ _ _ => sext12 (immSOf w)
  | .beq _ _ _ | .bne _ _ _ | .blt _ _ _ | .bge _ _ _ | .bltu _ _ _ | .bgeu _ _ _ => branchOffset (offBOf w)
  | .jalr _ _ _
  | .lb _ _ _ | .lh _ _ _ | .lw _ _ _ | .lbu _ _ _ | .lhu _ _ _
  | .addi _ _ _ | .slti _ _ _ | .sltiu _ _ _ | .xori _ _ _ | .ori _ _ _ | .andi _ _ _ => sext12 (immIOf w)
  | .add _ _ _ | .sub _ _ _ | .sll _ _ _ | .slt _ _ _ | .sltu _ _ _ | .xor _ _ _ | .srl _ _ _ | .sra _ _ _
  | .or _ _ _ | .and _ _ _
  | .fence _ _ _ | .fencei _ _ _ | .ecall | .ebreak => 0#32

/-- ALU operand B, selected by `alu_src` (spec 40 R78). -/
def operandB (n : Snapshot) (i : Instr) (s : State) : Word :=
  if n.aluSrc then immediate i else s.readReg (rs2Of (encode i))

/-- The extended value a load offers to the write port (spec 43 R121 to R126; used for loads only). -/
def loadedValue (i : Instr) (ea : Word) (s : State) : Word :=
  match i with
  | .lh _ _ _ => (s.memRead2 ea).signExtend 32
  | .lhu _ _ _ => (s.memRead2 ea).setWidth 32
  | .lb _ _ _ => (s.memRead1 ea).signExtend 32
  | .lbu _ _ _ => (s.memRead1 ea).setWidth 32
  | .lw _ _ _ => s.memRead4 ea
  | .lui _ _ | .auipc _ _ | .jal _ _ | .jalr _ _ _
  | .beq _ _ _ | .bne _ _ _ | .blt _ _ _ | .bge _ _ _ | .bltu _ _ _ | .bgeu _ _ _
  | .sb _ _ _ | .sh _ _ _ | .sw _ _ _
  | .addi _ _ _ | .slti _ _ _ | .sltiu _ _ _ | .xori _ _ _ | .ori _ _ _ | .andi _ _ _
  | .slli _ _ _ | .srli _ _ _ | .srai _ _ _
  | .add _ _ _ | .sub _ _ _ | .sll _ _ _ | .slt _ _ _ | .sltu _ _ _ | .xor _ _ _ | .srl _ _ _ | .sra _ _ _
  | .or _ _ _ | .and _ _ _
  | .fence _ _ _ | .fencei _ _ _ | .ecall | .ebreak => 0#32

/-- The write-back multiplexer (spec 40 R86), `r` the ALU result. -/
def writeBack (n : Snapshot) (i : Instr) (r : Word) (s : State) : Word :=
  if n.jump then s.pc + 1#32 else if n.alu2reg then r else loadedValue i r s

/-- The memory write port: `MemWrite` with the ALU result as its address (spec 44 R128 to R131). -/
def memoryPort (n : Snapshot) (i : Instr) (r v : Word) (s : State) : State :=
  if n.wem then
    match i with
    | .sb _ _ _ => s.memWrite1 r v
    | .sh _ _ _ => s.memWrite2 r v
    | .sw _ _ _ => s.memWrite4 r v
    | .lui _ _ | .auipc _ _ | .jal _ _ | .jalr _ _ _
    | .beq _ _ _ | .bne _ _ _ | .blt _ _ _ | .bge _ _ _ | .bltu _ _ _ | .bgeu _ _ _
    | .lb _ _ _ | .lh _ _ _ | .lw _ _ _ | .lbu _ _ _ | .lhu _ _ _
    | .addi _ _ _ | .slti _ _ _ | .sltiu _ _ _ | .xori _ _ _ | .ori _ _ _ | .andi _ _ _
    | .slli _ _ _ | .srli _ _ _ | .srai _ _ _
    | .add _ _ _ | .sub _ _ _ | .sll _ _ _ | .slt _ _ _ | .sltu _ _ _ | .xor _ _ _ | .srl _ _ _ | .sra _ _ _
    | .or _ _ _ | .and _ _ _
    | .fence _ _ _ | .fencei _ _ _ | .ecall | .ebreak => s
  else s

/-- The comparator's answer, read off the ALU result as spec 40 R80 says it is tested. -/
def condFromAlu (i : Instr) (r : Word) : Bool :=
  match i with
  | .beq _ _ _ => r == 0#32
  | .bne _ _ _ => r != 0#32
  | .blt _ _ _ | .bltu _ _ _ => r.getLsbD 0
  | .bge _ _ _ | .bgeu _ _ _ => !r.getLsbD 0
  | .lui _ _ | .auipc _ _ | .jal _ _ | .jalr _ _ _
  | .lb _ _ _ | .lh _ _ _ | .lw _ _ _ | .lbu _ _ _ | .lhu _ _ _
  | .sb _ _ _ | .sh _ _ _ | .sw _ _ _
  | .addi _ _ _ | .slti _ _ _ | .sltiu _ _ _ | .xori _ _ _ | .ori _ _ _ | .andi _ _ _
  | .slli _ _ _ | .srli _ _ _ | .srai _ _ _
  | .add _ _ _ | .sub _ _ _ | .sll _ _ _ | .slt _ _ _ | .sltu _ _ _ | .xor _ _ _ | .srl _ _ _ | .sra _ _ _
  | .or _ _ _ | .and _ _ _
  | .fence _ _ _ | .fencei _ _ _ | .ecall | .ebreak => false

/-- The branch/jump multiplexer output (spec 40 R88). -/
def takenSignal (n : Snapshot) (cond : Bool) : Bool := n.jump || (n.branch && cond)

/-- The PC sequencer (spec 40 R89), `r` the ALU result, which for a jump is the target (R80). -/
def nextPc (n : Snapshot) (i : Instr) (taken : Bool) (r : Word) (s : State) : Word :=
  if !taken then s.pc + 1#32 else if n.jump then r else s.pc + immediate i

/-- One pass through the datapath: reads first, then the writes (spec 40 R74). -/
def datapath (i : Instr) (s : State) : State :=
  match signals i with
  | none => s
  | some (cls, op) =>
    let n := controlSignals cls op
    let r := alu op (operandA i s) (operandB n i s)
    let taken := takenSignal n (condFromAlu i r)
    let t := memoryPort n i r (s.readReg (rs2Of (encode i))) s
    let u := if n.wer then t.writeReg (rdOf (encode i)) (writeBack n i r s) else t
    u.retire n taken (nextPc n i taken r s)

end Sys2Proof.Machine
end

