-- ==== Sys2Proof/Safety.lean ====
section
/-! DEFINITION. What a safe state is, and the terms in which statements say what an instruction does and leaves alone. -/

namespace Sys2Proof.Machine

/-- The error a step raises for the word `w` in build `c`, if any (spec 30 R60; 48 R145 to R150; 60 R153, R154). -/
def wordError (c : Config) (w : Word) : Option ErrCode :=
  match decode c w with
  | .reject .noRow => some .decodeError
  | .reject .subwordAbsent => some .decodeError
  | .reject .offsetNotWhole => some .operandError
  | .instr i => if Supported c i then none else some .decodeError

/-- The invariant of the machine: it holds at power-on, and every step, `reset` and `load` keep it. -/
structure State.Inv (s : State) : Prop where
  /-- The build is one the spec allows (spec 00 R6). -/
  build : s.cfg.wf
  /-- Equal memories are equal lists. -/
  canonical : s.mem.wf = true
  /-- No word beyond MEM_WORDS holds anything but 0 (spec 20 R33, R39). -/
  mapped : ∀ k, s.cfg.memWords ≤ k → s.mem.readWord k = 0#32
  /-- Register 0 holds 0 (spec 10 R11, R12). -/
  zero : s.regs[0] = 0#32
  /-- L < 2^32 (spec 10 R17). -/
  program : s.im.length < 2 ^ 32
  /-- A snapshot is the encoder's for its class and operation (spec 40 R82). -/
  encoder : ∀ n, s.snap = some n → n = controlSignals n.type n.aluOp
  /-- The multiplexer output is 1 after a jump, and only after a jump or a branch (spec 40 R88). -/
  multiplexer : (s.taken = true → ∃ n, s.snap = some n ∧ (n.jump = true ∨ n.branch = true)) ∧
    (∀ n, s.snap = some n → n.jump = true → s.taken = true)
  /-- The error record describes the word the PC still indexes, and that word does fail so (spec 60 R155, R156). -/
  latch : ∀ e, s.err = some e →
    e.pc = s.pc ∧ s.im[s.pc.toNat]? = some e.instr ∧ wordError s.cfg e.instr = some e.code

/-- No error is recorded (spec 10 R22). -/
def State.Safe (s : State) : Prop := s.err = none

/-- Every byte of the data memory is as before. -/
def SameMemory (s t : State) : Prop := ∀ a, t.mem.readByte a = s.mem.readByte a

/-- Every general register is as before. -/
def SameRegs (s t : State) : Prop := ∀ r, t.readReg r = s.readReg r

/-- The build, the program and the error record are as before: no instruction that completes changes them. -/
def SameFixed (s t : State) : Prop := t.cfg = s.cfg ∧ t.im = s.im ∧ t.err = s.err

/-- `x[rd] <- v`, discarded for `x[0]`, and every other register as before (spec 10 R12). -/
def RegWritten (s t : State) (rd : RegIdx) (v : Word) : Prop :=
  ∀ r, t.readReg r = if r = 0#5 then 0#32 else if r = rd then v else s.readReg r

/-- The outcome is a next state in which an instruction wrote `v` to `x[rd]` with snapshot `n` and went on at `pc'`; memory and
everything else is as before. -/
def WritesReg (o : Result) (s : State) (rd : RegIdx) (v : Word) (n : Snapshot) (taken : Bool) (pc' : Word) : Prop :=
  ∃ t, o = .next t ∧ RegWritten s t rd v ∧ t.pc = pc' ∧ t.snap = some n ∧ t.taken = taken ∧
    SameMemory s t ∧ SameFixed s t

/-- The outcome is a next state in which an instruction only committed snapshot `n` and went on at `pc'`. -/
def OnlyMoves (o : Result) (s : State) (n : Snapshot) (taken : Bool) (pc' : Word) : Prop :=
  ∃ t, o = .next t ∧ SameRegs s t ∧ t.pc = pc' ∧ t.snap = some n ∧ t.taken = taken ∧ SameMemory s t ∧ SameFixed s t

/-- The outcome is a next state in which an instruction set the word `M[k]` to `v` if `k` is in range, and committed the
snapshot of a store; every other word, and every byte outside the `n` low lanes of `M[k]`, is as before. -/
def Stores (o : Result) (s : State) (ea : Word) (bytes : Nat) (v : Word) : Prop :=
  ∃ t, o = .next t ∧
    t.mem.readWord ea.toNat = (if ea.toNat < s.cfg.memWords then v else s.mem.readWord ea.toNat) ∧
    (∀ a, ¬(ea.toNat < s.cfg.memWords ∧ 4 * ea.toNat ≤ a ∧ a < 4 * ea.toNat + bytes) →
      t.mem.readByte a = s.mem.readByte a) ∧
    SameRegs s t ∧ t.pc = s.pc + 1#32 ∧
    t.snap = some { type := .store, aluOp := .add, wer := false, aluSrc := true, alu2reg := false, wem := true,
                    branch := false, jump := false } ∧
    t.taken = false ∧ SameFixed s t

/-- The outcome is the failed step with this code for the word `w`: exactly the error record changes (spec 60 R156). -/
def Fails (o : Result) (s : State) (code : ErrCode) (w : Word) : Prop :=
  o = .next { s with err := some { code := code, pc := s.pc, instr := w } }

end Sys2Proof.Machine
end

