-- ==== Sys2Proof/Certificates/Slice0/Obligations.lean ====
section
/-! DEFINITION. The statements for the provers. Each quantifies over every build (`s.cfg`), so it holds for every value of
MEM_WORDS and SUBWORD_LS unless a hypothesis says otherwise. -/

open Sys2Proof Sys2Proof.Machine

namespace Sys2Proof.Claims

/-! ## The shapes of the instruction rules -/

/-- A class R instruction (spec 41): its word, the value it writes, its snapshot and its frame. -/
def RegRule (mk : RegIdx → RegIdx → RegIdx → Instr) (f7 : BitVec 7) (f3 : BitVec 3) (op : AluOp)
    (f : Word → Word → Word) : Prop :=
  ∀ (rd rs1 rs2 : RegIdx) (s : State),
    encode (mk rd rs1 rs2) = f7 ++ rs2 ++ rs1 ++ f3 ++ rd ++ 0b0110011#7 ∧
    WritesReg (exec (mk rd rs1 rs2) s) s rd (f (s.readReg rs1) (s.readReg rs2))
      { type := .r, aluOp := op, wer := true, aluSrc := false, alu2reg := true, wem := false, branch := false,
        jump := false } false (s.pc + 1#32)

/-- A class I instruction with a 12-bit immediate (spec 42). -/
def ImmRule (mk : RegIdx → RegIdx → BitVec 12 → Instr) (f3 : BitVec 3) (op : AluOp)
    (f : Word → BitVec 12 → Word) : Prop :=
  ∀ (rd rs1 : RegIdx) (imm : BitVec 12) (s : State),
    encode (mk rd rs1 imm) = imm ++ rs1 ++ f3 ++ rd ++ 0b0010011#7 ∧
    WritesReg (exec (mk rd rs1 imm) s) s rd (f (s.readReg rs1) imm)
      { type := .i, aluOp := op, wer := true, aluSrc := true, alu2reg := true, wem := false, branch := false,
        jump := false } false (s.pc + 1#32)

/-- A class I shift (spec 42 R118 to R120), `f` of the operand and the shift amount. -/
def ShiftRule (mk : RegIdx → RegIdx → BitVec 5 → Instr) (f7 : BitVec 7) (f3 : BitVec 3) (op : AluOp)
    (f : Word → Nat → Word) : Prop :=
  ∀ (rd rs1 : RegIdx) (shamt : BitVec 5) (s : State),
    encode (mk rd rs1 shamt) = f7 ++ shamt ++ rs1 ++ f3 ++ rd ++ 0b0010011#7 ∧
    WritesReg (exec (mk rd rs1 shamt) s) s rd (f (s.readReg rs1) shamt.toNat)
      { type := .i, aluOp := op, wer := true, aluSrc := true, alu2reg := true, wem := false, branch := false,
        jump := false } false (s.pc + 1#32)

/-- The word `MemRead` looks at (spec 20 R34): 0 out of range. -/
def wordRead (s : State) (ea : Word) : Word :=
  if ea.toNat < s.cfg.memWords then s.mem.readWord ea.toNat else 0#32

/-- A load (spec 43): `f` extends what it takes from the addressed word. -/
def LoadRule (mk : RegIdx → RegIdx → BitVec 12 → Instr) (f3 : BitVec 3) (f : Word → Word) (present : Config → Prop) : Prop :=
  ∀ (rd rs1 : RegIdx) (imm : BitVec 12) (s : State), present s.cfg →
    encode (mk rd rs1 imm) = imm ++ rs1 ++ f3 ++ rd ++ 0b0000011#7 ∧
    WritesReg (exec (mk rd rs1 imm) s) s rd (f (wordRead s (s.readReg rs1 + imm.signExtend 32)))
      { type := .load, aluOp := .add, wer := true, aluSrc := true, alu2reg := false, wem := false, branch := false,
        jump := false } false (s.pc + 1#32)

/-- A store (spec 44): `f` merges the old word `M[EA]` and the data register into the new word. -/
def StoreRule (mk : RegIdx → RegIdx → BitVec 12 → Instr) (f3 : BitVec 3) (bytes : Nat) (f : Word → Word → Word)
    (present : Config → Prop) : Prop :=
  ∀ (rs2 rs1 : RegIdx) (imm : BitVec 12) (s : State), present s.cfg → s.mem.wf = true →
    encode (mk rs2 rs1 imm) = imm.extractLsb' 5 7 ++ rs2 ++ rs1 ++ f3 ++ imm.extractLsb' 0 5 ++ 0b0100011#7 ∧
    Stores (exec (mk rs2 rs1 imm) s) s (s.readReg rs1 + imm.signExtend 32) bytes
      (f (s.mem.readWord (s.readReg rs1 + imm.signExtend 32).toNat) (s.readReg rs2))

/-- A branch (spec 45): its word, its two outcomes, and the OperandError of a byte offset that is no whole number of
instructions, which the decoder refuses and a step raises whatever the operands are (R132, the spec's decision D4). -/
def BranchRule (mk : RegIdx → RegIdx → BitVec 11 → Instr) (f3 : BitVec 3) (op : AluOp) (rel : Word → Word → Bool) : Prop :=
  (∀ (rs1 rs2 : RegIdx) (off : BitVec 11) (s : State),
    (∀ b : BitVec 13, b = off ++ 0#2 →
      encode (mk rs1 rs2 off) = b.extractLsb' 12 1 ++ b.extractLsb' 5 6 ++ rs2 ++ rs1 ++ f3 ++ b.extractLsb' 1 4 ++
        b.extractLsb' 11 1 ++ 0b1100011#7) ∧
    OnlyMoves (exec (mk rs1 rs2 off) s) s
      { type := .branch, aluOp := op, wer := false, aluSrc := false, alu2reg := false, wem := false, branch := true,
        jump := false }
      (rel (s.readReg rs1) (s.readReg rs2))
      (if rel (s.readReg rs1) (s.readReg rs2) then BitVec.ofInt 32 (s.pc.toNat + off.toInt)
        else BitVec.ofNat 32 (s.pc.toNat + 1))) ∧
  (∀ (c : Config) (w : Word), w.extractLsb' 0 7 = 0b1100011#7 → w.extractLsb' 12 3 = f3 → w[8] = true →
    decode c w = .reject .offsetNotWhole) ∧
  ∀ s : State, s.status = .ready → s.fetchWord.extractLsb' 0 7 = 0b1100011#7 → s.fetchWord.extractLsb' 12 3 = f3 →
    s.fetchWord[8] = true → Fails (step s) s .operandError s.fetchWord

/-- A program run for `n` steps by the host (spec 70 R182). -/
def Runs (n : Nat) (s t : State) : Prop := Sys2Proof.core.run n s = .next t

/-- A branch or `jal` word whose byte offset has bit 1 set: `w[8]` is immB[1], `w[21]` is immJ[1] (spec 30 R56, R58). -/
def HalfOffsetWord (w : Word) : Prop :=
  (w.extractLsb' 0 7 = 0b1100011#7 ∧ w.extractLsb' 12 3 ∉ [0b010#3, 0b011#3] ∧ w[8] = true) ∨
  (w.extractLsb' 0 7 = 0b1101111#7 ∧ w[21] = true)

/-- The words of the six sub-word instructions (spec 48 R150). -/
def SubwordWord (w : Word) : Prop :=
  (w.extractLsb' 0 7 = 0b0000011#7 ∧ w.extractLsb' 12 3 ∈ [0b000#3, 0b001#3, 0b100#3, 0b101#3]) ∨
  (w.extractLsb' 0 7 = 0b0100011#7 ∧ w.extractLsb' 12 3 ∈ [0b000#3, 0b001#3])

/-- The words of spec 48 R149's table that the unsupported rows of the opcode table do not name. -/
def StandardButAbsent (w : Word) : Prop :=
  w.extractLsb' 0 2 ≠ 0b11#2 ∨
  (w.extractLsb' 0 7 = 0b0110011#7 ∧ w.extractLsb' 25 7 ≠ 0b0000000#7 ∧
    ¬(w.extractLsb' 25 7 = 0b0100000#7 ∧ (w.extractLsb' 12 3 = 0b000#3 ∨ w.extractLsb' 12 3 = 0b101#3))) ∨
  (w.extractLsb' 0 7 = 0b0010011#7 ∧ w.extractLsb' 12 3 = 0b001#3 ∧ w.extractLsb' 25 7 ≠ 0b0000000#7) ∨
  (w.extractLsb' 0 7 = 0b0010011#7 ∧ w.extractLsb' 12 3 = 0b101#3 ∧ w.extractLsb' 25 7 ≠ 0b0000000#7 ∧
    w.extractLsb' 25 7 ≠ 0b0100000#7) ∨
  (w.extractLsb' 0 7 = 0b0000011#7 ∧ w.extractLsb' 12 3 ∈ [0b011#3, 0b110#3, 0b111#3]) ∨
  (w.extractLsb' 0 7 = 0b0100011#7 ∧ w.extractLsb' 12 3 ∈ [0b011#3, 0b100#3, 0b101#3, 0b110#3, 0b111#3]) ∨
  (w.extractLsb' 0 7 = 0b1100011#7 ∧ w.extractLsb' 12 3 ∈ [0b010#3, 0b011#3]) ∨
  (w.extractLsb' 0 7 = 0b1100111#7 ∧ w.extractLsb' 12 3 ≠ 0b000#3) ∨
  w.extractLsb' 0 7 ∉ [0b0110111#7, 0b0010111#7, 0b1101111#7, 0b1100111#7, 0b1100011#7, 0b0000011#7, 0b0100011#7,
    0b0010011#7, 0b0110011#7, 0b0001111#7, 0b1110011#7]

end Sys2Proof.Claims

open Sys2Proof.Claims

/-! ## Encoding and decoding (spec 30) -/

/-- Worked words of the spec, one or more per family (spec 41 R101; 42 R112; 43 R122; 44 R129; 45 R133; 46 R139, R140;
47 R142, R143; 48 R146, R149; 60 R154). A check of a few words, no more. That the decoder names `ecall`, which the spec says
raises DecodeError, is the model's form (log entry 5). -/
def Obligations.WorkedWordsDecode : Prop :=
  ∀ c : Config,
    decode c 0x006283B3#32 = .instr (.add 7#5 5#5 6#5) ∧
    decode c 0x4042D313#32 = .instr (.srai 6#5 5#5 4#5) ∧
    decode c 0x00A00293#32 = .instr (.addi 5#5 0#5 10#12) ∧
    decode c 0x0082A303#32 = .instr (.lw 6#5 5#5 8#12) ∧
    decode c 0xFE62AE23#32 = .instr (.sw 6#5 5#5 0xFFC#12) ∧
    decode c 0xFE209AE3#32 = .instr (.bne 1#5 2#5 (BitVec.ofInt 11 (-3))) ∧
    decode c 0xFF9FF06F#32 = .instr (.jal 0#5 (BitVec.ofInt 19 (-2))) ∧
    decode c 0x003280E7#32 = .instr (.jalr 1#5 5#5 3#12) ∧
    decode c 0x123452B7#32 = .instr (.lui 5#5 0x12345#20) ∧
    decode c 0x00001297#32 = .instr (.auipc 5#5 1#20) ∧
    decode c 0x00000073#32 = .instr .ecall ∧
    decode c 0x00208163#32 = .reject .offsetNotWhole ∧
    decode c 0x026283B3#32 = .reject .noRow

/-- Headline: decoding what was encoded gives the instruction back, for every instruction of every build, with every operand
at every value (spec 30 R60). That the decoder delivers `fence`, `fence.i`, `ecall` and `ebreak` too, which are none of the
37 mnemonics of R60, is the model's form (log entry 5). -/
def Obligations.DecodeOfEncode : Prop :=
  ∀ (c : Config) (i : Instr), i.wellFormed c = true → decode c (encode i) = .instr i

/-- Headline: each word has one meaning. What the decoder delivers encodes to the very word, so no bit of a word is dropped,
and is no sub-word instruction that the build lacks (spec 30 R60). That it may be one of `fence`, `fence.i`, `ecall` and
`ebreak`, which no build implements, is the model's form (log entry 5). -/
def Obligations.EncodeOfDecode : Prop :=
  ∀ (c : Config) (w : Word) (i : Instr), decode c w = .instr i → encode i = w ∧ i.wellFormed c = true

/-- The rows of the opcode map are mutually exclusive (spec 30 R60, last sentence). -/
def Obligations.OpcodeRowsExclusive : Prop :=
  ∀ (w : Word) (j k : Nat) (hj : j < rows.length) (hk : k < rows.length),
    (rows[j]).pattern.fits w = true → (rows[k]).pattern.fits w = true → j = k

/-- The offset of a branch or `jal` that the decoder delivers is the byte offset the spec assembles from the bits of the word,
shifted right by two with its sign; the byte offset is exactly four times it, and it lies in the range the spec gives
(spec 30 R56, R58, both the spec's decision D4). -/
def Obligations.ByteOffsetsBecomeInstructionOffsets : Prop :=
  (∀ (c : Config) (w : Word) (rs1 rs2 : RegIdx) (off : BitVec 11),
    ∀ i ∈ [Instr.beq rs1 rs2 off, .bne rs1 rs2 off, .blt rs1 rs2 off, .bge rs1 rs2 off, .bltu rs1 rs2 off, .bgeu rs1 rs2 off],
    decode c w = .instr i →
    ∀ b : BitVec 13,
      b = w.extractLsb' 31 1 ++ w.extractLsb' 7 1 ++ w.extractLsb' 25 6 ++ w.extractLsb' 8 4 ++ 0#1 →
      off.signExtend 32 = (b.signExtend 32).sshiftRight 2 ∧ b.toInt = 4 * off.toInt ∧
      -1024 ≤ off.toInt ∧ off.toInt ≤ 1023) ∧
  ∀ (c : Config) (w : Word) (rd : RegIdx) (off : BitVec 19), decode c w = .instr (.jal rd off) →
    ∀ j : BitVec 21,
      j = w.extractLsb' 31 1 ++ w.extractLsb' 12 8 ++ w.extractLsb' 20 1 ++ w.extractLsb' 21 10 ++ 0#1 →
      off.signExtend 32 = (j.signExtend 32).sshiftRight 2 ∧ j.toInt = 4 * off.toInt ∧
      -262144 ≤ off.toInt ∧ off.toInt ≤ 262143

/-- Exactly the branch words with a relation and the `jal` words whose byte offset has bit 1 set are refused as malformed
operands, whatever the build, and a step on such a word fails with OperandError and changes only the error record
(spec 30 R60 step 4; 60 R154, decisions D4 and D12). -/
def Obligations.OperandErrorsAreOddOffsets : Prop :=
  (∀ (c : Config) (w : Word), decode c w = .reject .offsetNotWhole ↔ HalfOffsetWord w) ∧
  ∀ s : State, s.status = .ready → HalfOffsetWord s.fetchWord → Fails (step s) s .operandError s.fetchWord

/-- Exactly the six sub-word encodings are refused because the build lacks them, and a step on one of them in such a build
fails with DecodeError and changes only the error record (spec 30 R60 step 3; 48 R150; decision D9). -/
def Obligations.SubwordWordsAbsent : Prop :=
  (∀ (c : Config) (w : Word), decode c w = .reject .subwordAbsent ↔ c.subwordLs = false ∧ SubwordWord w) ∧
  ∀ s : State, s.status = .ready → s.cfg.subwordLs = false → SubwordWord s.fetchWord →
    Fails (step s) s .decodeError s.fetchWord

/-! ## Unsupported words (spec 48) -/

/-- Every word with major opcode `0001111` fails with DecodeError, whatever its other bits (spec 48 R145). -/
def Obligations.FenceWordsFail : Prop :=
  ∀ s : State, s.status = .ready → s.fetchWord.extractLsb' 0 7 = 0b0001111#7 →
    Fails (step s) s .decodeError s.fetchWord

/-- Every SYSTEM word fails with DecodeError: ECALL (spec 48 R146), EBREAK (R147) and all others (R148). -/
def Obligations.SystemWordsFail : Prop :=
  ∀ s : State, s.status = .ready → s.fetchWord.extractLsb' 0 7 = 0b1110011#7 →
    Fails (step s) s .decodeError s.fetchWord

/-- Every word no row of the opcode map fits fails with DecodeError, and each class of the spec's table is such a class
(spec 48 R149). -/
def Obligations.OtherWordsFail : Prop :=
  ∀ s : State, s.status = .ready →
    ((∀ r ∈ rows, r.pattern.fits s.fetchWord = false) ∨ StandardButAbsent s.fetchWord) →
    Fails (step s) s .decodeError s.fetchWord

/-- The four named unsupported instructions complete as failed steps that record their own word: exactly the error record
changes (spec 48 R145 to R147; 60 R156). That decoding names them is the model's form (log entry 5). -/
def Obligations.UnsupportedInstructionsRecordTheirWord : Prop :=
  ∀ (rd rs1 : RegIdx) (imm : BitVec 12) (s : State),
    Fails (exec (.fence rd rs1 imm) s) s .decodeError (imm ++ rs1 ++ 0b000#3 ++ rd ++ 0b0001111#7) ∧
    Fails (exec (.fencei rd rs1 imm) s) s .decodeError (imm ++ rs1 ++ 0b001#3 ++ rd ++ 0b0001111#7) ∧
    Fails (exec .ecall s) s .decodeError 0x00000073#32 ∧
    Fails (exec .ebreak s) s .decodeError 0x00100073#32

/-- In a build without SUBWORD_LS the six sub-word instructions take the DecodeError, with their own word recorded, and do
nothing else (spec 48 R150, decision D9). -/
def Obligations.SubwordInstructionsAbsent : Prop :=
  ∀ (r rs1 : RegIdx) (imm : BitVec 12) (s : State), s.cfg.subwordLs = false →
    ∀ i ∈ [Instr.lb r rs1 imm, .lh r rs1 imm, .lbu r rs1 imm, .lhu r rs1 imm, .sb r rs1 imm, .sh r rs1 imm],
      Fails (exec i s) s .decodeError (encode i)

/-! ## The step (spec 40; 60) -/

/-- A step is total: from every state it answers a next state, never a fault or a refusal (spec 40 R70). -/
def Obligations.StepIsTotal : Prop := ∀ s : State, ∃ t, step s = .next t

/-- When Ready the fetched word is in the program, and the step runs what it decodes to: the instruction's effect, or the
failed step of a refused word (spec 40 R72, R73, R91). -/
def Obligations.StepRunsDecoded : Prop :=
  ∀ s : State, s.status = .ready →
    s.im[s.pc.toNat]? = some s.fetchWord ∧
    (∀ i, decode s.cfg s.fetchWord = .instr i → step s = exec i s) ∧
    (∀ r, decode s.cfg s.fetchWord = .reject r → step s = .next (s.raise (rejectCode r) s.fetchWord))

/-- Errors are precise. A Ready step fails exactly when its word is in error, and then only the error record changes; else
it completes without an error and with the snapshot of the instruction its word decodes to (spec 60 R153, R154, R156, R159;
40 R80, R82, R90). That the snapshot stays when a step fails is the spec's decision D18, the values of a snapshot are its
decision D10, and which words are malformed operands its decision D4. -/
def Obligations.ErrorsArePrecise : Prop :=
  ∀ s : State, s.status = .ready →
    (∀ code, wordError s.cfg s.fetchWord = some code → Fails (step s) s code s.fetchWord) ∧
    (wordError s.cfg s.fetchWord = none →
      ∃ i cls op t, decode s.cfg s.fetchWord = .instr i ∧ signals i = some (cls, op) ∧ step s = .next t ∧
        t.err = none ∧ t.snap = some (controlSignals cls op))

/-- No step raises MisalignedAccess or OutOfRangeAddress: codes 3 and 4 never appear where they were not (spec 60 R158, and
R157, the spec's decision D7). -/
def Obligations.MisalignmentNeverRaised : Prop :=
  ∀ s t : State, step s = .next t → ∀ e, t.err = some e →
    s.err = some e ∨ e.code = .decodeError ∨ e.code = .operandError

/-- A machine that is not Ready stays as it is for any number of steps, so an error is never cleared or overwritten by
stepping; `reset` and `load` clear it (spec 40 R71; 60 R162, decision D12). -/
def Obligations.NotReadyIsFixed : Prop :=
  ∀ (s : State), s.status ≠ .ready →
    (∀ n : Nat, Runs n s s) ∧ s.hostReset.err = none ∧ ∀ p, (s.hostLoad p).err = none

/-- The status output, by its three lines (spec 10 R21; the unsigned comparison is decision D3). -/
def Obligations.StatusOutput : Prop :=
  ∀ s : State, (s.status = .error ↔ s.err ≠ none) ∧ (s.status = .halted ↔ s.err = none ∧ s.im.length ≤ s.pc.toNat) ∧
    (s.status = .ready ↔ s.err = none ∧ s.pc.toNat < s.im.length)

/-! ## The invariant (tier 3) and whole-machine rules -/

/-- Headline: every step from a state that meets the invariant gives one that meets it: the memory stays canonical and
inside MEM_WORDS, register 0 stays 0, the snapshot stays one of the encoder's, and an error record keeps describing the
failing word at the PC (spec 10 R11, R17, R20, R22; 20 R33; 40 R82; 60 R155, R156). -/
def Obligations.StepKeepsInvariant : Prop := ∀ s t : State, s.Inv → step s = .next t → t.Inv

/-- The invariant holds at power-on, in the build and with the `taken` output the model names there (log entries 2 and 7). -/
def Obligations.InvariantAtReset : Prop := State.reset.Inv

/-- The host's `reset` and `load` keep the invariant (spec 70 R171, R172); that `taken` is then 0 is the model's choice (log
entry 7). -/
def Obligations.HostOperationsKeepInvariant : Prop :=
  ∀ s : State, s.Inv → s.hostReset.Inv ∧ ∀ p : List Word, p.length < 2 ^ 32 → (s.hostLoad p).Inv

/-- No step changes the program or the build, and `reset` keeps both. `load` alone changes the program, keeps the build, and
leaves the registers, the memory, the PC, the snapshot and the error record as `reset` leaves them (spec 20 R44; 10 R17,
R29). -/
def Obligations.ProgramNeverWritten : Prop :=
  ∀ s : State, (∀ t, step s = .next t → t.im = s.im ∧ t.cfg = s.cfg) ∧
    s.hostReset.im = s.im ∧ s.hostReset.cfg = s.cfg ∧
    ∀ p, (s.hostLoad p).im = p ∧ (s.hostLoad p).cfg = s.cfg ∧ SameRegs s.hostReset (s.hostLoad p) ∧
      SameMemory s.hostReset (s.hostLoad p) ∧ (s.hostLoad p).pc = s.hostReset.pc ∧
      (s.hostLoad p).snap = s.hostReset.snap ∧ (s.hostLoad p).err = s.hostReset.err

/-- The snapshot tells the truth: a step after which `wer` is 0 has changed no register, one after which `wem` is 0 no byte
of memory, and a Ready step that completes with neither a branch taken nor a jump has gone on to the next index
(spec 40 R85, R88, R89). -/
def Obligations.SnapshotTellsWhatWasWritten : Prop :=
  ∀ s t : State, step s = .next t → ∀ n, t.snap = some n →
    (n.wer = false → SameRegs s t) ∧ (n.wem = false → SameMemory s t) ∧
    (s.status = .ready → t.err = none → t.taken = false → t.pc = s.pc + 1#32)

/-- A step writes at most one register or at most one word of memory, never both. The register is the one the `rd` field of
its word names; only a step that decodes to a store changes memory, it changes no register, and the word it changes is the
one at its effective address, if that is in range (spec 40 R76, R91; 44 R128). -/
def Obligations.OneWritePerStep : Prop :=
  ∀ s t : State, s.mem.wf = true → step s = .next t →
    (∀ r, r ≠ rdOf s.fetchWord → t.readReg r = s.readReg r) ∧
    (∀ (rs2 rs1 : RegIdx) (imm : BitVec 12), ∀ i ∈ [Instr.sb rs2 rs1 imm, .sh rs2 rs1 imm, .sw rs2 rs1 imm],
      decode s.cfg s.fetchWord = .instr i →
      SameRegs s t ∧ ∀ j, ¬(j = (s.effAddr rs1 imm).toNat ∧ j < s.cfg.memWords) → t.mem.readWord j = s.mem.readWord j) ∧
    ((∀ (rs2 rs1 : RegIdx) (imm : BitVec 12), ∀ i ∈ [Instr.sb rs2 rs1 imm, .sh rs2 rs1 imm, .sw rs2 rs1 imm],
      decode s.cfg s.fetchWord ≠ .instr i) → SameMemory s t)

/-- No instruction reads the snapshot or `taken`: two Ready states that differ only there step to states that differ at most
there (spec 10 R20; 40 R85). -/
def Obligations.SnapshotNeverRead : Prop :=
  ∀ (s t : State) (n : Option Snapshot) (k : Bool), s.status = .ready → step s = .next t →
    ∃ t', step { s with snap := n, taken := k } = .next t' ∧
      t' = { t with snap := t'.snap, taken := t'.taken } ∧ (t.err = none → t' = t)

/-- The functional blocks and the instruction rules agree: operand multiplexers, ALU, write-back multiplexer, memory port,
branch/jump multiplexer and PC sequencer together compute what each supported instruction's own rule says
(spec 40 R75 to R90; R85). -/
def Obligations.DatapathAgreesWithRules : Prop :=
  ∀ (i : Instr) (s : State), Supported s.cfg i = true → exec i s = .next (datapath i s)

/-! ## Registers, reset and the host (spec 10; 70) -/

/-- Register 0 reads 0 at all times and discards writes; another register reads back what was written, and no other changes
(spec 10 R11). -/
def Obligations.RegisterFile : Prop :=
  ∀ (s : State) (i : RegIdx) (v : Word),
    s.readReg 0#5 = 0#32 ∧ s.writeReg 0#5 v = s ∧ (i ≠ 0#5 → (s.writeReg i v).readReg i = v) ∧
    ∀ r, r ≠ i → (s.writeReg i v).readReg r = s.readReg r

/-- Every supported instruction completes; whether it writes a register is a matter of its class alone (`wer` is 1 even where
`rd` is `x[0]`), and the write goes to its `rd` field: exactly the value of the write-back multiplexer is read back there, it
is discarded for `x[0]`, and it is seen nowhere else (spec 10 R12; 40 R76, R82). The multiplexer is that of 40 R86, the spec's
decision D10. -/
def Obligations.WriteBackReachesItsRegister : Prop :=
  ∀ (i : Instr) (s : State), Supported s.cfg i = true →
    ∃ t cls op, signals i = some (cls, op) ∧ exec i s = .next t ∧ t.snap = some (controlSignals cls op) ∧
      ((controlSignals cls op).wer = true ↔ cls ≠ .store ∧ cls ≠ .branch) ∧
      ((controlSignals cls op).wer = true → RegWritten s t (rdOf (encode i))
        (writeBack (controlSignals cls op) i (alu op (operandA i s) (operandB (controlSignals cls op) i s)) s)) ∧
      ((controlSignals cls op).wer = false → SameRegs s t)

/-- After `reset` or `load` every register and every word of memory reads 0, and no state is left unspecified: the result
depends on nothing but the build and the program, and `load` leaves what `reset` leaves but for the program (spec 70 R172,
R173). That this covers `taken`, for which the spec gives no value there, is the model's choice (log entry 7). -/
def Obligations.NothingUnspecifiedAfterReset : Prop :=
  ∀ (s s' : State) (p : List Word), s'.cfg = s.cfg →
    (∀ t ∈ [s.hostReset, s.hostLoad p], (∀ r, t.readReg r = 0#32) ∧ ∀ k, t.mem.readWord k = 0#32) ∧
    s'.hostLoad p = s.hostLoad p ∧ (s'.im = s.im → s'.hostReset = s.hostReset) ∧
    s.hostLoad p = { s.hostReset with im := p }

/-- `reset` twice is `reset` once (spec 70 R174). -/
def Obligations.ResetIdempotent : Prop :=
  ∀ s : State, s.hostReset.hostReset = s.hostReset ∧ (∀ r, s.hostReset.readReg r = 0#32) ∧
    (∀ a, s.hostReset.mem.readByte a = 0#8) ∧ s.hostReset.pc = 0#32 ∧ s.hostReset.snap = none

/-- The first step after `reset` or `load` executes IM[0]: the machine is Ready, fetches it, and the step is the instruction it
decodes to, or the failed step of a refused word (spec 70 R177). -/
def Obligations.EntryIsInstructionZero : Prop :=
  ∀ (s t : State) (w : Word) (p : List Word), t = s.hostLoad (w :: p) ∨ (s.im = w :: p ∧ t = s.hostReset) →
    t.status = .ready ∧ t.fetchWord = w ∧
    (∀ i, decode s.cfg w = .instr i → step t = exec i t) ∧
    ∀ r, decode s.cfg w = .reject r → Fails (step t) t (rejectCode r) w

/-- However many steps were run, `reset` returns to the same state, so the same run follows again (spec 70 R175). That the
state is the same in `taken` too rests on the value the model gives it at reset (log entry 7). -/
def Obligations.ResetReplaysTheProgram : Prop :=
  ∀ (n m : Nat) (s t u : State), Runs n s t → Runs m s.hostReset u → Runs m t.hostReset u

/-! ## Class R (spec 41) -/

/-- `add` and `sub`, modulo 2^32 (spec 41 R101, R102). -/
def Obligations.AddSubRegisters : Prop :=
  RegRule .add 0b0000000#7 0b000#3 .add (fun a b => BitVec.ofNat 32 (a.toNat + b.toNat)) ∧
  RegRule .sub 0b0100000#7 0b000#3 .sub (fun a b => BitVec.ofInt 32 (a.toInt - b.toInt))

/-- `and`, `or`, `xor`, bit by bit (spec 41 R103 to R105). -/
def Obligations.LogicRegisters : Prop :=
  RegRule .and 0b0000000#7 0b111#3 .and (fun a b => BitVec.ofFnLE fun i : Fin 32 => a[i] && b[i]) ∧
  RegRule .or 0b0000000#7 0b110#3 .or (fun a b => BitVec.ofFnLE fun i : Fin 32 => a[i] || b[i]) ∧
  RegRule .xor 0b0000000#7 0b100#3 .xor (fun a b => BitVec.ofFnLE fun i : Fin 32 => a[i] ^^ b[i])

/-- `sll`, `srl`, `sra` by the low five bits of the second operand (spec 41 R106 to R108): `sra` divides the signed value,
rounding down. -/
def Obligations.ShiftRegisters : Prop :=
  RegRule .sll 0b0000000#7 0b001#3 .sll (fun a b => BitVec.ofNat 32 (a.toNat * 2 ^ (b.toNat % 32))) ∧
  RegRule .srl 0b0000000#7 0b101#3 .srl (fun a b => BitVec.ofNat 32 (a.toNat / 2 ^ (b.toNat % 32))) ∧
  RegRule .sra 0b0100000#7 0b101#3 .sra (fun a b => BitVec.ofInt 32 (a.toInt / 2 ^ (b.toNat % 32)))

/-- `slt` compares signed and `sltu` unsigned; the result is the number 1 or 0 (spec 41 R109, R110). -/
def Obligations.CompareRegisters : Prop :=
  RegRule .slt 0b0000000#7 0b010#3 .slt (fun a b => if a.toInt < b.toInt then 1#32 else 0#32) ∧
  RegRule .sltu 0b0000000#7 0b011#3 .sltu (fun a b => if a.toNat < b.toNat then 1#32 else 0#32)

/-! ## Class I (spec 42) -/

/-- `addi`, `andi`, `ori`, `xori` with a sign-extended immediate (spec 42 R112 to R115). -/
def Obligations.ArithmeticImmediates : Prop :=
  ImmRule .addi 0b000#3 .add (fun a imm => BitVec.ofInt 32 (a.toInt + imm.toInt)) ∧
  ImmRule .andi 0b111#3 .and (fun a imm => a &&& BitVec.ofInt 32 imm.toInt) ∧
  ImmRule .ori 0b110#3 .or (fun a imm => a ||| BitVec.ofInt 32 imm.toInt) ∧
  ImmRule .xori 0b100#3 .xor (fun a imm => a ^^^ BitVec.ofInt 32 imm.toInt)

/-- `slti` compares with the immediate as a signed number (spec 42 R116). -/
def Obligations.CompareSignedImmediate : Prop :=
  ImmRule .slti 0b010#3 .slt (fun a imm => if a.toInt < imm.toInt then 1#32 else 0#32)

/-- `sltiu` sign-extends the immediate and then compares unsigned (spec 42 R117, which the spec marks as derived). -/
def Obligations.CompareUnsignedImmediate : Prop :=
  ImmRule .sltiu 0b011#3 .sltu (fun a imm => if a.toNat < (BitVec.ofInt 32 imm.toInt).toNat then 1#32 else 0#32)

/-- `slli`, `srli`, `srai` by the 5-bit shift amount, and the DecodeError of every other upper field (spec 42 R118 to R120). -/
def Obligations.ShiftImmediates : Prop :=
  ShiftRule .slli 0b0000000#7 0b001#3 .sll (fun a k => BitVec.ofNat 32 (a.toNat * 2 ^ k)) ∧
  ShiftRule .srli 0b0000000#7 0b101#3 .srl (fun a k => BitVec.ofNat 32 (a.toNat / 2 ^ k)) ∧
  ShiftRule .srai 0b0100000#7 0b101#3 .sra (fun a k => BitVec.ofInt 32 (a.toInt / 2 ^ k)) ∧
  ∀ (c : Config) (w : Word), w.extractLsb' 0 7 = 0b0010011#7 →
    (w.extractLsb' 12 3 = 0b001#3 → w.extractLsb' 25 7 ≠ 0b0000000#7 → decode c w = .reject .noRow) ∧
    (w.extractLsb' 12 3 = 0b101#3 → w.extractLsb' 25 7 ≠ 0b0000000#7 → w.extractLsb' 25 7 ≠ 0b0100000#7 →
      decode c w = .reject .noRow)

/-! ## Loads and stores (spec 43, 44; 20) -/

/-- `lw` reads the word at `x[rs1] + sext(imm)`, a word index, or 0 out of range (spec 43 R122). -/
def Obligations.LoadWordResult : Prop := LoadRule .lw 0b010#3 (fun w => w) fun _ => True

/-- `lh lb lhu lbu` take the low half or byte of the addressed word and extend it, in a build that has them
(spec 43 R123 to R126, decisions D9 and D16). -/
def Obligations.LoadSubwordResults : Prop :=
  LoadRule .lh 0b001#3 (fun w => BitVec.ofInt 32 (w.extractLsb' 0 16).toInt) (fun c => c.subwordLs = true) ∧
  LoadRule .lb 0b000#3 (fun w => BitVec.ofInt 32 (w.extractLsb' 0 8).toInt) (fun c => c.subwordLs = true) ∧
  LoadRule .lhu 0b101#3 (fun w => BitVec.ofNat 32 (w.toNat % 2 ^ 16)) (fun c => c.subwordLs = true) ∧
  LoadRule .lbu 0b100#3 (fun w => BitVec.ofNat 32 (w.toNat % 2 ^ 8)) (fun c => c.subwordLs = true)

/-- `sw` makes the word at `x[rs1] + sext(imm)` the data register's, and stores nothing out of range; no register and no
other byte changes (spec 44 R129). -/
def Obligations.StoreWordResult : Prop := StoreRule .sw 0b010#3 4 (fun _ v => v) fun _ => True

/-- `sh` and `sb` replace the low half or byte of the addressed word and keep the rest, in a build that has them
(spec 44 R130, R131, decisions D9 and D16). -/
def Obligations.StoreSubwordResults : Prop :=
  StoreRule .sh 0b001#3 2 (fun old v => old.extractLsb' 16 16 ++ v.extractLsb' 0 16) (fun c => c.subwordLs = true) ∧
  StoreRule .sb 0b000#3 1 (fun old v => old.extractLsb' 8 24 ++ v.extractLsb' 0 8) (fun c => c.subwordLs = true)

/-- A load returns what the last store to the word put there: after `sw` at an in-range address, `lw` from the same address
gives the stored word in any register but `x[0]`, from every later state with that memory (spec 20 R41; the two-instruction
form is an inference). -/
def Obligations.LoadReturnsStoredWord : Prop :=
  ∀ (rs2 rs1 rd rs : RegIdx) (imm imm' : BitVec 12) (s t u : State), s.mem.wf = true →
    s.effAddr rs1 imm = u.effAddr rs imm' → (s.effAddr rs1 imm).toNat < s.cfg.memWords → rd ≠ 0#5 →
    exec (.sw rs2 rs1 imm) s = .next t → u.mem = t.mem → u.cfg = t.cfg →
    ∃ v, exec (.lw rd rs imm') u = .next v ∧ v.readReg rd = s.readReg rs2

/-- Mixed widths at one word: after `sw` of a value, `lbu` gives its low byte and `lhu` its low half; after `sb`, `lw` gives
the old word with the byte replaced (spec 20 R36, decision D16). -/
def Obligations.MixedWidthsShareTheLowEnd : Prop :=
  ∀ (rs2 rs1 rd : RegIdx) (imm : BitVec 12) (s t : State), s.mem.wf = true → s.cfg.subwordLs = true →
    (s.effAddr rs1 imm).toNat < s.cfg.memWords → rd ≠ 0#5 →
    (exec (.sw rs2 rs1 imm) s = .next t → ∃ v v', exec (.lbu rd rs1 imm) t = .next v ∧
      v.readReg rd = (s.readReg rs2) &&& 0xFF#32 ∧
      exec (.lhu rd rs1 imm) t = .next v' ∧ v'.readReg rd = (s.readReg rs2) &&& 0xFFFF#32) ∧
    (exec (.sb rs2 rs1 imm) s = .next t → ∃ v, exec (.lw rd rs1 imm) t = .next v ∧
      v.readReg rd = (s.mem.readWord (s.effAddr rs1 imm).toNat &&& 0xFFFFFF00#32) ||| (s.readReg rs2 &&& 0xFF#32))

/-- Out of range is silent: every store, of whatever width, leaves memory as it is and completes, and every load writes 0
(spec 20 R33, decision D7). -/
def Obligations.OutOfRangeIsSilent : Prop :=
  ∀ (r rs1 : RegIdx) (imm : BitVec 12) (s : State), s.cfg.subwordLs = true →
    s.cfg.memWords ≤ (s.effAddr rs1 imm).toNat →
    (∀ i ∈ [Instr.sw r rs1 imm, .sh r rs1 imm, .sb r rs1 imm], ∃ t, exec i s = .next t ∧ t.mem = s.mem ∧ t.err = s.err ∧
      t.pc = s.pc + 1#32) ∧
    (∀ i ∈ [Instr.lw r rs1 imm, .lh r rs1 imm, .lhu r rs1 imm, .lb r rs1 imm, .lbu r rs1 imm],
      ∃ t, exec i s = .next t ∧ t.readReg r = 0#32 ∧ t.err = s.err ∧ t.pc = s.pc + 1#32)

/-- In range, read unsigned or signed, is the same: a negative address is out of range (spec 20 R32, which the spec marks as
derived). -/
def Obligations.NegativeAddressesOutOfRange : Prop :=
  ∀ (s : State) (a : Word), s.cfg.wf → (s.inRange a = true ↔ 0 ≤ a.toInt ∧ a.toInt < s.cfg.memWords)

/-! ## Control transfer (spec 45, 46) -/

/-- `beq` and `bne` (spec 45 R133, R134), and the OperandError of their words whose byte offset is no whole number of
instructions (R132, the spec's decision D4). -/
def Obligations.BranchOnEquality : Prop :=
  BranchRule .beq 0b000#3 .sub (fun a b => decide (a.toNat = b.toNat)) ∧
  BranchRule .bne 0b001#3 .sub (fun a b => decide (a.toNat ≠ b.toNat))

/-- `blt` and `bge`, signed (spec 45 R135, R136), and the OperandError of their words whose byte offset is no whole number of
instructions (R132, the spec's decision D4). -/
def Obligations.BranchOnSignedOrder : Prop :=
  BranchRule .blt 0b100#3 .slt (fun a b => decide (a.toInt < b.toInt)) ∧
  BranchRule .bge 0b101#3 .slt (fun a b => decide (a.toInt ≥ b.toInt))

/-- `bltu` and `bgeu`, unsigned (spec 45 R137, R138), and the OperandError of their words whose byte offset is no whole
number of instructions (R132, the spec's decision D4). -/
def Obligations.BranchOnUnsignedOrder : Prop :=
  BranchRule .bltu 0b110#3 .sltu (fun a b => decide (a.toNat < b.toNat)) ∧
  BranchRule .bgeu 0b111#3 .sltu (fun a b => decide (a.toNat ≥ b.toNat))

/-- `jal` links the next index and moves by the signed instruction offset; `jalr` links it and goes to
`x[rs1] + sext(imm)`, read before `rd` is written and with bit 0 kept (spec 46 R139, R140, decisions D4 and D5). -/
def Obligations.JumpsLinkAndGo : Prop :=
  ∀ (rd rs1 : RegIdx) (off : BitVec 19) (imm : BitVec 12) (s : State),
    (∀ j : BitVec 21, j = off ++ 0#2 → encode (.jal rd off) = j.extractLsb' 20 1 ++ j.extractLsb' 1 10 ++
      j.extractLsb' 11 1 ++ j.extractLsb' 12 8 ++ rd ++ 0b1101111#7) ∧
    encode (.jalr rd rs1 imm) = imm ++ rs1 ++ 0b000#3 ++ rd ++ 0b1100111#7 ∧
    WritesReg (exec (.jal rd off) s) s rd (BitVec.ofNat 32 (s.pc.toNat + 1))
      { type := .jump, aluOp := .add, wer := true, aluSrc := true, alu2reg := false, wem := false, branch := false,
        jump := true } true (BitVec.ofInt 32 (s.pc.toNat + off.toInt)) ∧
    WritesReg (exec (.jalr rd rs1 imm) s) s rd (BitVec.ofNat 32 (s.pc.toNat + 1))
      { type := .jump, aluOp := .add, wer := true, aluSrc := true, alu2reg := false, wem := false, branch := false,
        jump := true } true (BitVec.ofInt 32 ((s.readReg rs1).toInt + imm.toInt))

/-- Calls and returns compose: `jalr x0, rd, 0` after `jal rd`, in any later state that kept `x[rd]`, goes to the
instruction after the call; and `auipc rd, hi` followed by `jalr x0, rd, lo` reaches `pc + (hi << 12) + lo`
(spec 46 R141, which the spec marks as derived). -/
def Obligations.CallsReturnAndLongJumpsReach : Prop :=
  ∀ (rd : RegIdx) (s t u : State), rd ≠ 0#5 → u.readReg rd = t.readReg rd →
    (∀ off, exec (.jal rd off) s = .next t → ∃ v, exec (.jalr 0#5 rd 0#12) u = .next v ∧ v.pc = s.pc + 1#32) ∧
    (∀ hi lo, exec (.auipc rd hi) s = .next t → ∃ v, exec (.jalr 0#5 rd lo) u = .next v ∧
      v.pc = BitVec.ofInt 32 (s.pc.toNat + hi.toNat * 4096 + lo.toInt))

/-! ## Class Upper (spec 47) -/

/-- `lui` puts its field above twelve zeros, every word with its opcode is a valid `lui`, and with it and `addi` any constant
is built: the upper field is that of `c` less the sign-extended low twelve bits (spec 47 R142). -/
def Obligations.LoadUpperImmediate : Prop :=
  (∀ (rd : RegIdx) (imm20 : BitVec 20) (s : State),
    encode (.lui rd imm20) = imm20 ++ rd ++ 0b0110111#7 ∧
    WritesReg (exec (.lui rd imm20) s) s rd (BitVec.ofNat 32 (imm20.toNat * 4096))
      { type := .upper, aluOp := .add, wer := true, aluSrc := true, alu2reg := true, wem := false, branch := false,
        jump := false } false (s.pc + 1#32)) ∧
  (∀ (c : Config) (w : Word), w.extractLsb' 0 7 = 0b0110111#7 →
    decode c w = .instr (.lui (w.extractLsb' 7 5) (w.extractLsb' 12 20))) ∧
  ∀ (rd : RegIdx) (c : Word) (s t : State), rd ≠ 0#5 →
    exec (.lui rd ((c - (c.extractLsb' 0 12).signExtend 32).extractLsb' 12 20)) s = .next t →
    ∃ u, exec (.addi rd rd (c.extractLsb' 0 12)) t = .next u ∧ u.readReg rd = c

/-- `auipc` adds its field times 4096 to its own instruction index, modulo 2^32 (spec 47 R143, decision D6). -/
def Obligations.AddUpperImmediateToPc : Prop :=
  ∀ (rd : RegIdx) (imm20 : BitVec 20) (s : State),
    encode (.auipc rd imm20) = imm20 ++ rd ++ 0b0010111#7 ∧
    WritesReg (exec (.auipc rd imm20) s) s rd (BitVec.ofNat 32 (s.pc.toNat + imm20.toNat * 4096))
      { type := .upper, aluOp := .add, wer := true, aluSrc := true, alu2reg := true, wem := false, branch := false,
        jump := false } false (s.pc + 1#32)
end

