-- ==== Sys2Proof/Laws/State.lean ====
section
/-! SUPPORT. One lemma per field per update of the state, and what the accessors see through an update. -/

namespace Sys2Proof.Machine

variable (s : State)

/-! ## writeReg -/

@[simp] theorem State.writeReg_cfg (i : RegIdx) (v : Word) : (s.writeReg i v).cfg = s.cfg := rfl
@[simp] theorem State.writeReg_pc (i : RegIdx) (v : Word) : (s.writeReg i v).pc = s.pc := rfl
@[simp] theorem State.writeReg_mem (i : RegIdx) (v : Word) : (s.writeReg i v).mem = s.mem := rfl
@[simp] theorem State.writeReg_im (i : RegIdx) (v : Word) : (s.writeReg i v).im = s.im := rfl
@[simp] theorem State.writeReg_snap (i : RegIdx) (v : Word) : (s.writeReg i v).snap = s.snap := rfl
@[simp] theorem State.writeReg_taken (i : RegIdx) (v : Word) : (s.writeReg i v).taken = s.taken := rfl
@[simp] theorem State.writeReg_err (i : RegIdx) (v : Word) : (s.writeReg i v).err = s.err := rfl

/-! ## memWrite4 -/

@[simp] theorem State.memWrite4_cfg (a v : Word) : (s.memWrite4 a v).cfg = s.cfg := rfl
@[simp] theorem State.memWrite4_regs (a v : Word) : (s.memWrite4 a v).regs = s.regs := rfl
@[simp] theorem State.memWrite4_pc (a v : Word) : (s.memWrite4 a v).pc = s.pc := rfl
@[simp] theorem State.memWrite4_im (a v : Word) : (s.memWrite4 a v).im = s.im := rfl
@[simp] theorem State.memWrite4_snap (a v : Word) : (s.memWrite4 a v).snap = s.snap := rfl
@[simp] theorem State.memWrite4_taken (a v : Word) : (s.memWrite4 a v).taken = s.taken := rfl
@[simp] theorem State.memWrite4_err (a v : Word) : (s.memWrite4 a v).err = s.err := rfl

/-! ## memWrite2 -/

@[simp] theorem State.memWrite2_cfg (a v : Word) : (s.memWrite2 a v).cfg = s.cfg := rfl
@[simp] theorem State.memWrite2_regs (a v : Word) : (s.memWrite2 a v).regs = s.regs := rfl
@[simp] theorem State.memWrite2_pc (a v : Word) : (s.memWrite2 a v).pc = s.pc := rfl
@[simp] theorem State.memWrite2_im (a v : Word) : (s.memWrite2 a v).im = s.im := rfl
@[simp] theorem State.memWrite2_snap (a v : Word) : (s.memWrite2 a v).snap = s.snap := rfl
@[simp] theorem State.memWrite2_taken (a v : Word) : (s.memWrite2 a v).taken = s.taken := rfl
@[simp] theorem State.memWrite2_err (a v : Word) : (s.memWrite2 a v).err = s.err := rfl

/-! ## memWrite1 -/

@[simp] theorem State.memWrite1_cfg (a v : Word) : (s.memWrite1 a v).cfg = s.cfg := rfl
@[simp] theorem State.memWrite1_regs (a v : Word) : (s.memWrite1 a v).regs = s.regs := rfl
@[simp] theorem State.memWrite1_pc (a v : Word) : (s.memWrite1 a v).pc = s.pc := rfl
@[simp] theorem State.memWrite1_im (a v : Word) : (s.memWrite1 a v).im = s.im := rfl
@[simp] theorem State.memWrite1_snap (a v : Word) : (s.memWrite1 a v).snap = s.snap := rfl
@[simp] theorem State.memWrite1_taken (a v : Word) : (s.memWrite1 a v).taken = s.taken := rfl
@[simp] theorem State.memWrite1_err (a v : Word) : (s.memWrite1 a v).err = s.err := rfl

/-! ## retire -/

@[simp] theorem State.retire_cfg (n : Snapshot) (k : Bool) (p : Word) : (s.retire n k p).cfg = s.cfg := rfl
@[simp] theorem State.retire_regs (n : Snapshot) (k : Bool) (p : Word) : (s.retire n k p).regs = s.regs := rfl
@[simp] theorem State.retire_pc (n : Snapshot) (k : Bool) (p : Word) : (s.retire n k p).pc = p := rfl
@[simp] theorem State.retire_mem (n : Snapshot) (k : Bool) (p : Word) : (s.retire n k p).mem = s.mem := rfl
@[simp] theorem State.retire_im (n : Snapshot) (k : Bool) (p : Word) : (s.retire n k p).im = s.im := rfl
@[simp] theorem State.retire_snap (n : Snapshot) (k : Bool) (p : Word) : (s.retire n k p).snap = some n := rfl
@[simp] theorem State.retire_taken (n : Snapshot) (k : Bool) (p : Word) : (s.retire n k p).taken = k := rfl
@[simp] theorem State.retire_err (n : Snapshot) (k : Bool) (p : Word) : (s.retire n k p).err = s.err := rfl

/-! ## raise -/

@[simp] theorem State.raise_cfg (c : ErrCode) (w : Word) : (s.raise c w).cfg = s.cfg := rfl
@[simp] theorem State.raise_regs (c : ErrCode) (w : Word) : (s.raise c w).regs = s.regs := rfl
@[simp] theorem State.raise_pc (c : ErrCode) (w : Word) : (s.raise c w).pc = s.pc := rfl
@[simp] theorem State.raise_mem (c : ErrCode) (w : Word) : (s.raise c w).mem = s.mem := rfl
@[simp] theorem State.raise_im (c : ErrCode) (w : Word) : (s.raise c w).im = s.im := rfl
@[simp] theorem State.raise_snap (c : ErrCode) (w : Word) : (s.raise c w).snap = s.snap := rfl
@[simp] theorem State.raise_taken (c : ErrCode) (w : Word) : (s.raise c w).taken = s.taken := rfl
@[simp] theorem State.raise_err (c : ErrCode) (w : Word) : (s.raise c w).err = some { code := c, pc := s.pc, instr := w } := rfl

/-! ## hostReset -/

@[simp] theorem State.hostReset_cfg : (s.hostReset).cfg = s.cfg := rfl
@[simp] theorem State.hostReset_regs : (s.hostReset).regs = Vector.replicate 32 0#32 := rfl
@[simp] theorem State.hostReset_pc : (s.hostReset).pc = 0#32 := rfl
@[simp] theorem State.hostReset_mem : (s.hostReset).mem = [] := rfl
@[simp] theorem State.hostReset_im : (s.hostReset).im = s.im := rfl
@[simp] theorem State.hostReset_snap : (s.hostReset).snap = none := rfl
@[simp] theorem State.hostReset_taken : (s.hostReset).taken = false := rfl
@[simp] theorem State.hostReset_err : (s.hostReset).err = none := rfl

/-! ## hostLoad -/

@[simp] theorem State.hostLoad_cfg (p : List Word) : (s.hostLoad p).cfg = s.cfg := rfl
@[simp] theorem State.hostLoad_regs (p : List Word) : (s.hostLoad p).regs = Vector.replicate 32 0#32 := rfl
@[simp] theorem State.hostLoad_pc (p : List Word) : (s.hostLoad p).pc = 0#32 := rfl
@[simp] theorem State.hostLoad_mem (p : List Word) : (s.hostLoad p).mem = [] := rfl
@[simp] theorem State.hostLoad_im (p : List Word) : (s.hostLoad p).im = p := rfl
@[simp] theorem State.hostLoad_snap (p : List Word) : (s.hostLoad p).snap = none := rfl
@[simp] theorem State.hostLoad_taken (p : List Word) : (s.hostLoad p).taken = false := rfl
@[simp] theorem State.hostLoad_err (p : List Word) : (s.hostLoad p).err = none := rfl

/-! ## Accessors -/

@[simp] theorem State.readReg_zero : s.readReg 0#5 = 0#32 := rfl

@[simp] theorem State.readReg_retire (n : Snapshot) (k : Bool) (p : Word) (r : RegIdx) :
    (s.retire n k p).readReg r = s.readReg r := rfl
@[simp] theorem State.readReg_raise (c : ErrCode) (w : Word) (r : RegIdx) : (s.raise c w).readReg r = s.readReg r := rfl
@[simp] theorem State.readReg_memWrite4 (a v : Word) (r : RegIdx) : (s.memWrite4 a v).readReg r = s.readReg r := rfl
@[simp] theorem State.readReg_memWrite2 (a v : Word) (r : RegIdx) : (s.memWrite2 a v).readReg r = s.readReg r := rfl
@[simp] theorem State.readReg_memWrite1 (a v : Word) (r : RegIdx) : (s.memWrite1 a v).readReg r = s.readReg r := rfl

/-- What `writeReg` does to every register (spec 10 R12). -/
theorem State.readReg_writeReg (i : RegIdx) (v : Word) (r : RegIdx) :
    (s.writeReg i v).readReg r = if r = 0#5 then 0#32 else if r = i then v else s.readReg r := by
  by_cases hr : r = 0#5
  · simp [hr]
  · by_cases hi : i = 0#5
    · have : r ≠ i := by rw [hi]; exact hr
      simp [State.readReg, State.writeReg, hr, hi]
    · by_cases h : r = i
      · subst h; simp [State.readReg, State.writeReg, hr]
      · have : i.toNat ≠ r.toNat := fun e => h (BitVec.eq_of_toNat_eq e.symm)
        simp [State.readReg, State.writeReg, hr, hi, h, Vector.getElem_set_ne, this]

@[simp] theorem State.readReg_writeReg_self (i : RegIdx) (v : Word) (hi : i ≠ 0#5) : (s.writeReg i v).readReg i = v := by
  simp [State.readReg_writeReg, hi]

theorem State.readReg_writeReg_ne (i : RegIdx) (v : Word) (r : RegIdx) (h : r ≠ i) :
    (s.writeReg i v).readReg r = s.readReg r := by
  by_cases hr : r = 0#5
  · subst hr; rfl
  · simp [State.readReg_writeReg, h, hr]

/-- A write to `x[0]` changes nothing at all (spec 10 R12). -/
@[simp] theorem State.writeReg_zero (v : Word) : s.writeReg 0#5 v = s := rfl

/-- No write reaches slot 0 of the file (spec 10 R11). -/
@[simp] theorem State.writeReg_slot0 (i : RegIdx) (v : Word) : (s.writeReg i v).regs[0] = s.regs[0] := by
  by_cases hi : i = 0#5
  · simp [State.writeReg, hi]
  · have : i.toNat ≠ 0 := fun e => hi (BitVec.eq_of_toNat_eq e)
    simp [State.writeReg, hi, Vector.getElem_set_ne, this]

/-- Every register reads 0 after `reset`, `load` and at power-on (spec 10 R28). -/
@[simp] theorem State.readReg_initial (c : Config) (p : List Word) (r : RegIdx) : (State.initial c p).readReg r = 0#32 := by
  simp [State.readReg, State.initial]

end Sys2Proof.Machine
end

