-- ==== Sys2Proof/Laws/Exec.lean ====
section
/-! SUPPORT. What each shared effect does, once; what an instruction can do; what a step can do. -/

namespace Sys2Proof.Machine

variable (s : State)

/-! ## The shared effects -/

/-- A register write followed by the end of the instruction: the shape of every writing class. -/
theorem writesReg_retire (rd : RegIdx) (v : Word) (n : Snapshot) (k : Bool) (p : Word) :
    WritesReg (.next ((s.writeReg rd v).retire n k p)) s rd v n k p :=
  ⟨_, rfl, fun r => by simp [State.readReg_writeReg], rfl, rfl, rfl, fun _ => rfl, rfl, rfl, rfl⟩

/-- The end of an instruction that writes nothing. -/
theorem onlyMoves_retire (n : Snapshot) (k : Bool) (p : Word) : OnlyMoves (.next (s.retire n k p)) s n k p :=
  ⟨_, rfl, fun _ => rfl, rfl, rfl, rfl, fun _ => rfl, rfl, rfl, rfl⟩

theorem regOp_writes (op : AluOp) (rd rs1 rs2 : RegIdx) :
    WritesReg (.next (regOp op rd rs1 rs2 s)) s rd (alu op (s.readReg rs1) (s.readReg rs2)) (controlSignals .r op) false
      (s.pc + 1#32) := writesReg_retire ..
theorem immOp_writes (op : AluOp) (rd rs1 : RegIdx) (b : Word) :
    WritesReg (.next (immOp op rd rs1 b s)) s rd (alu op (s.readReg rs1) b) (controlSignals .i op) false (s.pc + 1#32) :=
  writesReg_retire ..
theorem loadOp_writes (rd : RegIdx) (v : Word) :
    WritesReg (.next (loadOp rd v s)) s rd v (controlSignals .load .add) false (s.pc + 1#32) := writesReg_retire ..
theorem upperOp_writes (rd : RegIdx) (v : Word) :
    WritesReg (.next (upperOp rd v s)) s rd v (controlSignals .upper .add) false (s.pc + 1#32) := writesReg_retire ..
theorem jumpOp_writes (rd : RegIdx) (target : Word) :
    WritesReg (.next (jumpOp rd target s)) s rd (s.pc + 1#32) (controlSignals .jump .add) true target := writesReg_retire ..
theorem branchOp_moves (rel : BranchRel) (rs1 rs2 : RegIdx) (off : BitVec 11) :
    OnlyMoves (.next (branchOp rel rs1 rs2 off s)) s (controlSignals .branch rel.aluOp)
      (branchCond rel (s.readReg rs1) (s.readReg rs2))
      (if branchCond rel (s.readReg rs1) (s.readReg rs2) then s.pc + branchOffset off else s.pc + 1#32) :=
  onlyMoves_retire ..

/-- A sub-word instruction in a build that has it. -/
theorem subwordOnly_present {s : State} (h : s.cfg.subwordLs = true) (w : Word) (t : State) : s.subwordOnly w t = t := by
  simp [State.subwordOnly, h]
/-- A sub-word instruction in a build without it fails (spec 48 R150). -/
theorem subwordOnly_absent {s : State} (h : s.cfg.subwordLs = false) (w : Word) (t : State) :
    s.subwordOnly w t = s.raise .decodeError w := by
  simp [State.subwordOnly, h]

/-! ## Status and fetch -/

theorem status_ready {s : State} : s.status = .ready ↔ s.err = none ∧ s.pc.toNat < s.im.length := by
  unfold State.status
  by_cases he : s.err = none <;> by_cases hl : s.im.length ≤ s.pc.toNat <;>
    simp [he, hl]; omega

theorem status_error {s : State} : s.status = .error ↔ s.err ≠ none := by
  unfold State.status
  by_cases he : s.err = none <;> by_cases hl : s.im.length ≤ s.pc.toNat <;> simp [he, hl]

theorem fetch_ready {s : State} (h : s.status = .ready) : s.im[s.pc.toNat]? = some s.fetchWord := by
  have := (status_ready.mp h).2
  simp [State.fetchWord, List.getD_eq_getElem?_getD, this]

/-! ## What an instruction can do -/

/-- The memory after a store of one of the three widths to the word `a`, or the memory before it where `a` is out of range. -/
def StoredMemory (s : State) (a : Word) (m : Memory) : Prop :=
  m = s.mem ∨ ∃ v : Word, a.toNat < s.cfg.memWords ∧
    (m = s.mem.writeWord a.toNat v ∨ m = s.mem.writeLow16 a.toNat v ∨ m = s.mem.writeLow8 a.toNat v)

theorem storedMemory_memWrite4 (a v : Word) : StoredMemory s a (s.memWrite4 a v).mem := by
  unfold State.memWrite4; dsimp only; split
  · exact .inr ⟨v, of_decide_eq_true ‹_›, .inl rfl⟩
  · exact .inl rfl
theorem storedMemory_memWrite2 (a v : Word) : StoredMemory s a (s.memWrite2 a v).mem := by
  unfold State.memWrite2; dsimp only; split
  · exact .inr ⟨v, of_decide_eq_true ‹_›, .inr (.inl rfl)⟩
  · exact .inl rfl
theorem storedMemory_memWrite1 (a v : Word) : StoredMemory s a (s.memWrite1 a v).mem := by
  unfold State.memWrite1; dsimp only; split
  · exact .inr ⟨v, of_decide_eq_true ‹_›, .inr (.inr rfl)⟩
  · exact .inl rfl

/-- Everything an instruction can do (spec 40 R91): write the register its word names, store at its effective address, branch,
or fail. The snapshot is that of the instruction's own class and operation. -/
inductive Effect (s : State) (i : Instr) : State → Prop where
  | writes (cls : InstrClass) (op : AluOp) (v : Word) (k : Bool) (p : Word) (hi : signals i = some (cls, op))
      (hs : cls ≠ .store) (hb : cls ≠ .branch) (hk : k = (controlSignals cls op).jump)
      (hp : (controlSignals cls op).jump = false → p = s.pc + 1#32) :
      Effect s i ((s.writeReg (rdOf (encode i)) v).retire (controlSignals cls op) k p)
  | stores (rs2 rs1 : RegIdx) (imm : BitVec 12) (m : Memory)
      (hi : i ∈ [Instr.sb rs2 rs1 imm, .sh rs2 rs1 imm, .sw rs2 rs1 imm]) (hm : StoredMemory s (s.effAddr rs1 imm) m) :
      Effect s i (({ s with mem := m } : State).retire (controlSignals .store .add) false (s.pc + 1#32))
  | branches (op : AluOp) (k : Bool) (p : Word) (hi : signals i = some (.branch, op)) (hp : k = false → p = s.pc + 1#32) :
      Effect s i (s.retire (controlSignals .branch op) k p)
  | fails (hs : Supported s.cfg i = false) : Effect s i (s.raise .decodeError (encode i))

/-- A store's class and operation. -/
theorem signals_store {i : Instr} {rs2 rs1 : RegIdx} {imm : BitVec 12}
    (h : i ∈ [Instr.sb rs2 rs1 imm, .sh rs2 rs1 imm, .sw rs2 rs1 imm]) : signals i = some (.store, .add) := by
  simp only [List.mem_cons, List.not_mem_nil, or_false] at h
  rcases h with rfl | rfl | rfl <;> rfl

theorem effect_reg {i : Instr} {op : AluOp} {rd rs1 rs2 : RegIdx} (hi : signals i = some (.r, op))
    (hr : rdOf (encode i) = rd) : Effect s i (regOp op rd rs1 rs2 s) := by
  subst hr; exact .writes _ _ _ _ _ hi (by decide) (by decide) rfl fun _ => rfl
theorem effect_imm {i : Instr} {op : AluOp} {rd rs1 : RegIdx} {b : Word} (hi : signals i = some (.i, op))
    (hr : rdOf (encode i) = rd) : Effect s i (immOp op rd rs1 b s) := by
  subst hr; exact .writes _ _ _ _ _ hi (by decide) (by decide) rfl fun _ => rfl
theorem effect_load {i : Instr} {rd : RegIdx} {v : Word} (hi : signals i = some (.load, .add))
    (hr : rdOf (encode i) = rd) : Effect s i (loadOp rd v s) := by
  subst hr; exact .writes _ _ _ _ _ hi (by decide) (by decide) rfl fun _ => rfl
theorem effect_upper {i : Instr} {rd : RegIdx} {v : Word} (hi : signals i = some (.upper, .add))
    (hr : rdOf (encode i) = rd) : Effect s i (upperOp rd v s) := by
  subst hr; exact .writes _ _ _ _ _ hi (by decide) (by decide) rfl fun _ => rfl
theorem effect_jump {i : Instr} {rd : RegIdx} {p : Word} (hi : signals i = some (.jump, .add))
    (hr : rdOf (encode i) = rd) : Effect s i (jumpOp rd p s) := by
  subst hr; exact .writes _ _ _ _ _ hi (by decide) (by decide) rfl fun h => by cases h
theorem effect_branch {i : Instr} {rel : BranchRel} {rs1 rs2 : RegIdx} {off : BitVec 11}
    (hi : signals i = some (.branch, rel.aluOp)) : Effect s i (branchOp rel rs1 rs2 off s) :=
  .branches _ _ _ hi fun h => by simp [h]
theorem effect_subword {i : Instr} (hi : i.isSubword = true) {t : State} (h : Effect s i t) :
    Effect s i (s.subwordOnly (encode i) t) := by
  unfold State.subwordOnly
  split
  · exact h
  · exact .fails (by simp [Supported, Instr.wellFormed, *])

/-- The inversion of `exec`: it always answers a next state, and that state is one of the four effects. -/
theorem exec_effect (i : Instr) : ∃ t, exec i s = .next t ∧ Effect s i t := by
  cases i <;> refine ⟨_, rfl, ?_⟩
  case lui => exact effect_upper s rfl (rdOf_wordU ..)
  case auipc => exact effect_upper s rfl (rdOf_wordU ..)
  case jal => exact effect_jump s rfl (rdOf_wordJ ..)
  case jalr => exact effect_jump s rfl (rdOf_wordI ..)
  case beq => exact effect_branch s rfl
  case bne => exact effect_branch s rfl
  case blt => exact effect_branch s rfl
  case bge => exact effect_branch s rfl
  case bltu => exact effect_branch s rfl
  case bgeu => exact effect_branch s rfl
  case lb => exact effect_subword s rfl (effect_load s rfl (rdOf_wordI ..))
  case lh => exact effect_subword s rfl (effect_load s rfl (rdOf_wordI ..))
  case lw => exact effect_load s rfl (rdOf_wordI ..)
  case lbu => exact effect_subword s rfl (effect_load s rfl (rdOf_wordI ..))
  case lhu => exact effect_subword s rfl (effect_load s rfl (rdOf_wordI ..))
  case sb rs2 rs1 imm => exact effect_subword s rfl (.stores rs2 rs1 imm _ (by simp) (storedMemory_memWrite1 ..))
  case sh rs2 rs1 imm => exact effect_subword s rfl (.stores rs2 rs1 imm _ (by simp) (storedMemory_memWrite2 ..))
  case sw rs2 rs1 imm => exact .stores rs2 rs1 imm _ (by simp) (storedMemory_memWrite4 ..)
  case addi => exact effect_imm s rfl (rdOf_wordI ..)
  case slti => exact effect_imm s rfl (rdOf_wordI ..)
  case sltiu => exact effect_imm s rfl (rdOf_wordI ..)
  case xori => exact effect_imm s rfl (rdOf_wordI ..)
  case ori => exact effect_imm s rfl (rdOf_wordI ..)
  case andi => exact effect_imm s rfl (rdOf_wordI ..)
  case slli => exact effect_imm s rfl (rdOf_wordR ..)
  case srli => exact effect_imm s rfl (rdOf_wordR ..)
  case srai => exact effect_imm s rfl (rdOf_wordR ..)
  case fence => exact .fails rfl
  case fencei => exact .fails rfl
  case ecall => exact .fails rfl
  case ebreak => exact .fails rfl
  all_goals exact effect_reg s rfl (rdOf_wordR ..)

/-! ## What a step can do -/

theorem step_notReady {s : State} (h : s.status ≠ .ready) : step s = .next s := by
  unfold step
  split <;> simp_all

theorem step_reject {s : State} (h : s.status = .ready) {r : Reject} (hd : decode s.cfg s.fetchWord = .reject r) :
    step s = .next (s.raise (rejectCode r) s.fetchWord) := by
  unfold step; rw [h]; simp only [hd]

theorem step_instr {s : State} (h : s.status = .ready) {i : Instr} (hd : decode s.cfg s.fetchWord = .instr i) :
    step s = exec i s := by
  unfold step; rw [h]; simp only [hd]

/-- The error of a refused word, by the code the step raises for it. -/
theorem wordError_reject {c : Config} {w : Word} {r : Reject} (h : decode c w = .reject r) :
    wordError c w = some (rejectCode r) := by
  cases r <;> simp [wordError, h, rejectCode]

/-- The error of a word that decodes to an instruction no build implements. -/
theorem wordError_unsupported {c : Config} {w : Word} {i : Instr} (h : decode c w = .instr i) (hs : Supported c i = false) :
    wordError c w = some .decodeError := by
  simp [wordError, h, hs]

/-- The inversion of `step`: a no-op, a refused word, or a decoded instruction's effect. -/
theorem step_cases :
    (s.status ≠ .ready ∧ step s = .next s) ∨
    (s.status = .ready ∧ ∃ r, decode s.cfg s.fetchWord = .reject r ∧
      step s = .next (s.raise (rejectCode r) s.fetchWord)) ∨
    (s.status = .ready ∧ ∃ i, decode s.cfg s.fetchWord = .instr i ∧ ∃ t, step s = .next t ∧ Effect s i t) := by
  by_cases h : s.status = .ready
  · refine .inr ?_
    cases hd : decode s.cfg s.fetchWord with
    | reject r => exact .inl ⟨h, r, rfl, step_reject h hd⟩
    | instr i =>
      obtain ⟨t, ht, he⟩ := exec_effect s i
      exact .inr ⟨h, i, rfl, t, by rw [step_instr h hd, ht], he⟩
  · exact .inl ⟨h, step_notReady h⟩

end Sys2Proof.Machine
end

