-- ==== Sys2Proof/Laws/Memory.lean ====
section
/-! SUPPORT. The laws of memory: the canonical form is kept, a read after a write, and every other place is left alone. -/

namespace Sys2Proof.Machine

/-! ## The canonical form -/

theorem Memory.wfAbove_mono {a b : Nat} (h : a ≤ b) : ∀ {m : Memory}, m.wfAbove b = true → m.wfAbove a = true
  | [], _ => rfl
  | (c, v) :: m, hm => by
    simp only [Memory.wfAbove, Bool.and_eq_true, decide_eq_true_eq] at hm ⊢
    exact ⟨⟨by omega, hm.1.2⟩, hm.2⟩

theorem Memory.wf_of_wfAbove {a : Nat} : ∀ {m : Memory}, m.wfAbove a = true → m.wf = true
  | [], _ => rfl
  | (c, v) :: m, hm => by
    simp only [Memory.wfAbove, Memory.wf, Bool.and_eq_true, decide_eq_true_eq] at hm ⊢
    exact ⟨hm.1.2, hm.2⟩

theorem Memory.wfAbove_consByte {a b : Nat} {v : Byte} {m : Memory} (hab : a < b) (hm : m.wfAbove b = true) :
    (Memory.consByte b v m).wfAbove a = true := by
  unfold Memory.consByte
  split
  · exact Memory.wfAbove_mono (Nat.le_of_lt hab) hm
  · simp [Memory.wfAbove, *]

theorem Memory.wfAbove_writeByte {a b : Nat} {v : Byte} (hab : a < b) :
    ∀ {m : Memory}, m.wfAbove a = true → (m.writeByte b v).wfAbove a = true
  | [], _ => Memory.wfAbove_consByte hab rfl
  | (c, w) :: m, hm => by
    simp only [Memory.wfAbove, Bool.and_eq_true, decide_eq_true_eq] at hm
    unfold Memory.writeByte
    split
    · exact Memory.wfAbove_consByte hab (by simp [Memory.wfAbove, *])
    · split
      · exact Memory.wfAbove_consByte hab (by simp [*])
      · simp [Memory.wfAbove, hm.1.1, hm.1.2, Memory.wfAbove_writeByte (by omega : c < b) hm.2]

/-- Writing a lane keeps the canonical form. -/
theorem Memory.wf_writeByte (b : Nat) (v : Byte) : ∀ {m : Memory}, m.wf = true → (m.writeByte b v).wf = true
  | [], _ => by
    unfold Memory.writeByte Memory.consByte
    split <;> simp [Memory.wf, Memory.wfAbove, *]
  | (c, w) :: m, hm => by
    simp only [Memory.wf, Bool.and_eq_true, decide_eq_true_eq] at hm
    unfold Memory.writeByte
    split
    · unfold Memory.consByte
      split <;> simp [Memory.wf, Memory.wfAbove, *]
    · split
      · unfold Memory.consByte
        split
        · exact Memory.wf_of_wfAbove hm.2
        · simp [Memory.wf, *]
      · simp [Memory.wf, hm.1, Memory.wfAbove_writeByte (by omega : c < b) hm.2]

theorem Memory.wf_writeLow8 {m : Memory} (h : m.wf = true) (k : Nat) (v : Word) : (m.writeLow8 k v).wf = true :=
  Memory.wf_writeByte _ _ h
theorem Memory.wf_writeLow16 {m : Memory} (h : m.wf = true) (k : Nat) (v : Word) : (m.writeLow16 k v).wf = true :=
  Memory.wf_writeByte _ _ (Memory.wf_writeLow8 h k v)
theorem Memory.wf_writeWord {m : Memory} (h : m.wf = true) (k : Nat) (v : Word) : (m.writeWord k v).wf = true :=
  Memory.wf_writeByte _ _ (Memory.wf_writeByte _ _ (Memory.wf_writeLow16 h k v))

theorem State.wf_memWrite4 {s : State} (h : s.mem.wf = true) (a v : Word) : (s.memWrite4 a v).mem.wf = true := by
  unfold State.memWrite4; dsimp only; split
  · exact Memory.wf_writeWord h _ _
  · exact h
theorem State.wf_memWrite2 {s : State} (h : s.mem.wf = true) (a v : Word) : (s.memWrite2 a v).mem.wf = true := by
  unfold State.memWrite2; dsimp only; split
  · exact Memory.wf_writeLow16 h _ _
  · exact h
theorem State.wf_memWrite1 {s : State} (h : s.mem.wf = true) (a v : Word) : (s.memWrite1 a v).mem.wf = true := by
  unfold State.memWrite1; dsimp only; split
  · exact Memory.wf_writeLow8 h _ _
  · exact h

/-! ## Reading lanes -/

theorem Memory.readByte_of_wfAbove {a b : Nat} (h : b ≤ a) : ∀ {m : Memory}, m.wfAbove a = true →
    m.readByte b = Memory.unlisted
  | [], _ => rfl
  | (c, w) :: m, hm => by
    simp only [Memory.wfAbove, Bool.and_eq_true, decide_eq_true_eq] at hm
    have : c ≠ b := by omega
    simp [Memory.readByte, this, Memory.readByte_of_wfAbove (by omega : b ≤ c) hm.2]

theorem Memory.readByte_consByte {a b : Nat} {v : Byte} {m : Memory} (hm : m.wfAbove b = true) :
    (Memory.consByte b v m).readByte a = if b = a then v else m.readByte a := by
  unfold Memory.consByte
  split
  · split
    · subst_vars; exact Memory.readByte_of_wfAbove (Nat.le_refl _) hm
    · rfl
  · rfl

theorem Memory.readByte_writeByte_above {l a b : Nat} {v : Byte} (hb : l < b) :
    ∀ {m : Memory}, m.wfAbove l = true → (m.writeByte b v).readByte a = if b = a then v else m.readByte a
  | [], _ => Memory.readByte_consByte rfl
  | (c, w) :: m, hm => by
    simp only [Memory.wfAbove, Bool.and_eq_true, decide_eq_true_eq] at hm
    unfold Memory.writeByte
    split
    · exact Memory.readByte_consByte (by simp [Memory.wfAbove, *])
    · split
      · subst_vars
        rw [Memory.readByte_consByte hm.2]
        split <;> simp [Memory.readByte, *]
      · have ih := Memory.readByte_writeByte_above (a := a) (v := v) (by omega : c < b) hm.2
        simp only [Memory.readByte]
        split
        · have : b ≠ a := by omega
          simp [this]
        · rw [ih]

/-- A read after a write of one lane (the basic law of memory). -/
theorem Memory.readByte_writeByte {m : Memory} (hm : m.wf = true) (a b : Nat) (v : Byte) :
    (m.writeByte b v).readByte a = if b = a then v else m.readByte a := by
  cases m with
  | nil => exact Memory.readByte_consByte rfl
  | cons c m =>
    obtain ⟨c, w⟩ := c
    simp only [Memory.wf, Bool.and_eq_true, decide_eq_true_eq] at hm
    unfold Memory.writeByte
    split
    · exact Memory.readByte_consByte (by simp [Memory.wfAbove, *])
    · split
      · subst_vars
        rw [Memory.readByte_consByte hm.2]
        split <;> simp [Memory.readByte, *]
      · simp only [Memory.readByte]
        split
        · have : b ≠ a := by omega
          simp [this]
        · exact Memory.readByte_writeByte_above (by omega) hm.2

/-- The lane `j` of `M[k]` after `MemWrite(k, 1, v)`. -/
theorem Memory.readByte_writeLow8 {m : Memory} (hm : m.wf = true) (k : Nat) (v : Word) (a : Nat) :
    (m.writeLow8 k v).readByte a = if 4 * k = a then v.extractLsb' 0 8 else m.readByte a :=
  Memory.readByte_writeByte hm _ _ _

theorem Memory.readByte_writeLow16 {m : Memory} (hm : m.wf = true) (k : Nat) (v : Word) (a : Nat) :
    (m.writeLow16 k v).readByte a =
      if 4 * k + 1 = a then v.extractLsb' 8 8 else if 4 * k = a then v.extractLsb' 0 8 else m.readByte a := by
  rw [Memory.writeLow16, Memory.readByte_writeByte (Memory.wf_writeLow8 hm k v), Memory.readByte_writeLow8 hm]

theorem Memory.readByte_writeWord {m : Memory} (hm : m.wf = true) (k : Nat) (v : Word) (a : Nat) :
    (m.writeWord k v).readByte a =
      if 4 * k + 3 = a then v.extractLsb' 24 8 else if 4 * k + 2 = a then v.extractLsb' 16 8
      else if 4 * k + 1 = a then v.extractLsb' 8 8 else if 4 * k = a then v.extractLsb' 0 8 else m.readByte a := by
  have h2 := Memory.wf_writeLow16 hm k v
  rw [Memory.writeWord, Memory.readByte_writeByte (Memory.wf_writeByte _ _ h2), Memory.readByte_writeByte h2,
    Memory.readByte_writeLow16 hm]

/-! ## Reading words -/

/-- A word is its four lanes. -/
theorem word_of_lanes (v : Word) :
    (v.extractLsb' 24 8 ++ v.extractLsb' 16 8 ++ v.extractLsb' 8 8 ++ v.extractLsb' 0 8 : BitVec 32) = v := by
  apply BitVec.eq_of_getLsbD_eq
  intro i hi
  simp only [BitVec.getLsbD_append, BitVec.getLsbD_extractLsb']
  interval_cases i <;> simp

/-- Other words keep their value: no access crosses a word (spec 20 R37). -/
theorem Memory.readWord_congr {m m' : Memory} {k : Nat}
    (h : ∀ j, j < 4 → m'.readByte (4 * k + j) = m.readByte (4 * k + j)) : m'.readWord k = m.readWord k := by
  have h0 := h 0 (by omega); have h1 := h 1 (by omega); have h2 := h 2 (by omega); have h3 := h 3 (by omega)
  simp only [Nat.add_zero] at h0
  simp only [Memory.readWord, h0, h1, h2, h3]

/-- `MemWrite(k, 4, v)` read back (spec 20 R35). -/
theorem Memory.readWord_writeWord {m : Memory} (hm : m.wf = true) (k l : Nat) (v : Word) :
    (m.writeWord k v).readWord l = if k = l then v else m.readWord l := by
  split
  · subst_vars
    simp only [Memory.readWord, Memory.readByte_writeWord hm]
    simp [word_of_lanes]
  · apply Memory.readWord_congr
    intro j hj
    rw [Memory.readByte_writeWord hm]
    repeat' split
    all_goals first | omega | rfl

/-- `MemWrite(k, 2, v)` read back: bits 31 to 16 keep their value (spec 20 R35). -/
theorem Memory.readWord_writeLow16 {m : Memory} (hm : m.wf = true) (k l : Nat) (v : Word) :
    (m.writeLow16 k v).readWord l =
      if k = l then (m.readWord l).extractLsb' 16 16 ++ v.extractLsb' 0 16 else m.readWord l := by
  split
  · subst_vars
    simp only [Memory.readWord, Memory.readByte_writeLow16 hm]
    apply BitVec.eq_of_getLsbD_eq
    intro i hi
    simp only [BitVec.getLsbD_append, BitVec.getLsbD_extractLsb']
    interval_cases i <;> simp
  · apply Memory.readWord_congr
    intro j hj
    rw [Memory.readByte_writeLow16 hm]
    repeat' split
    all_goals first | omega | rfl

/-- `MemWrite(k, 1, v)` read back: bits 31 to 8 keep their value (spec 20 R35). -/
theorem Memory.readWord_writeLow8 {m : Memory} (hm : m.wf = true) (k l : Nat) (v : Word) :
    (m.writeLow8 k v).readWord l =
      if k = l then (m.readWord l).extractLsb' 8 24 ++ v.extractLsb' 0 8 else m.readWord l := by
  split
  · subst_vars
    simp only [Memory.readWord, Memory.readByte_writeLow8 hm]
    apply BitVec.eq_of_getLsbD_eq
    intro i hi
    simp only [BitVec.getLsbD_append, BitVec.getLsbD_extractLsb']
    interval_cases i <;> simp
  · apply Memory.readWord_congr
    intro j hj
    rw [Memory.readByte_writeLow8 hm]
    repeat' split
    all_goals first | omega | rfl

end Sys2Proof.Machine
end

