-- ==== Sys2Proof/Laws/PerInstr.lean ====
section
/-! SUPPORT. Facts about every instruction as syntax, one lemma per constructor. -/

/-- Bits 1:0 of an encoded instruction are `0b11` (spec 30 R46). -/
def Sys2Proof.Laws.LowBits.Statement (i : Sys2Proof.Instr) : Prop :=
  (Sys2Proof.encode i).extractLsb' 0 2 = 0b11#2

namespace Sys2Proof.Laws.LowBits

/-- The low bits of a word are those of its opcode. -/
theorem of_opcode {i : Instr} {op : BitVec 7} (h : opcodeOf (encode i) = op) (ho : op.extractLsb' 0 2 = 0b11#2) :
    Statement i := by
  have hw : ∀ w : Word, w.extractLsb' 0 2 = (opcodeOf w).extractLsb' 0 2 := by
    intro w
    apply BitVec.eq_of_getLsbD_eq
    intro k hk
    simp only [opcodeOf, BitVec.getLsbD_extractLsb']
    interval_cases k <;> simp
  rw [Statement, hw, h, ho]

theorem lui (rd : RegIdx) (imm20 : BitVec 20) : Statement (.lui rd imm20) := of_opcode (by simp [encode]; rfl) (by decide)
theorem auipc (rd : RegIdx) (imm20 : BitVec 20) : Statement (.auipc rd imm20) := of_opcode (by simp [encode]; rfl) (by decide)
theorem jal (rd : RegIdx) (off : BitVec 19) : Statement (.jal rd off) := of_opcode (by simp [encode]; rfl) (by decide)
theorem jalr (rd rs1 : RegIdx) (imm : BitVec 12) : Statement (.jalr rd rs1 imm) := of_opcode (by simp [encode]; rfl) (by decide)
theorem beq (rs1 rs2 : RegIdx) (off : BitVec 11) : Statement (.beq rs1 rs2 off) := of_opcode (by simp [encode]; rfl) (by decide)
theorem bne (rs1 rs2 : RegIdx) (off : BitVec 11) : Statement (.bne rs1 rs2 off) := of_opcode (by simp [encode]; rfl) (by decide)
theorem blt (rs1 rs2 : RegIdx) (off : BitVec 11) : Statement (.blt rs1 rs2 off) := of_opcode (by simp [encode]; rfl) (by decide)
theorem bge (rs1 rs2 : RegIdx) (off : BitVec 11) : Statement (.bge rs1 rs2 off) := of_opcode (by simp [encode]; rfl) (by decide)
theorem bltu (rs1 rs2 : RegIdx) (off : BitVec 11) : Statement (.bltu rs1 rs2 off) := of_opcode (by simp [encode]; rfl) (by decide)
theorem bgeu (rs1 rs2 : RegIdx) (off : BitVec 11) : Statement (.bgeu rs1 rs2 off) := of_opcode (by simp [encode]; rfl) (by decide)
theorem lb (rd rs1 : RegIdx) (imm : BitVec 12) : Statement (.lb rd rs1 imm) := of_opcode (by simp [encode]; rfl) (by decide)
theorem lh (rd rs1 : RegIdx) (imm : BitVec 12) : Statement (.lh rd rs1 imm) := of_opcode (by simp [encode]; rfl) (by decide)
theorem lw (rd rs1 : RegIdx) (imm : BitVec 12) : Statement (.lw rd rs1 imm) := of_opcode (by simp [encode]; rfl) (by decide)
theorem lbu (rd rs1 : RegIdx) (imm : BitVec 12) : Statement (.lbu rd rs1 imm) := of_opcode (by simp [encode]; rfl) (by decide)
theorem lhu (rd rs1 : RegIdx) (imm : BitVec 12) : Statement (.lhu rd rs1 imm) := of_opcode (by simp [encode]; rfl) (by decide)
theorem sb (rs2 rs1 : RegIdx) (imm : BitVec 12) : Statement (.sb rs2 rs1 imm) := of_opcode (by simp [encode]; rfl) (by decide)
theorem sh (rs2 rs1 : RegIdx) (imm : BitVec 12) : Statement (.sh rs2 rs1 imm) := of_opcode (by simp [encode]; rfl) (by decide)
theorem sw (rs2 rs1 : RegIdx) (imm : BitVec 12) : Statement (.sw rs2 rs1 imm) := of_opcode (by simp [encode]; rfl) (by decide)
theorem addi (rd rs1 : RegIdx) (imm : BitVec 12) : Statement (.addi rd rs1 imm) := of_opcode (by simp [encode]; rfl) (by decide)
theorem slti (rd rs1 : RegIdx) (imm : BitVec 12) : Statement (.slti rd rs1 imm) := of_opcode (by simp [encode]; rfl) (by decide)
theorem sltiu (rd rs1 : RegIdx) (imm : BitVec 12) : Statement (.sltiu rd rs1 imm) := of_opcode (by simp [encode]; rfl) (by decide)
theorem xori (rd rs1 : RegIdx) (imm : BitVec 12) : Statement (.xori rd rs1 imm) := of_opcode (by simp [encode]; rfl) (by decide)
theorem ori (rd rs1 : RegIdx) (imm : BitVec 12) : Statement (.ori rd rs1 imm) := of_opcode (by simp [encode]; rfl) (by decide)
theorem andi (rd rs1 : RegIdx) (imm : BitVec 12) : Statement (.andi rd rs1 imm) := of_opcode (by simp [encode]; rfl) (by decide)
theorem slli (rd rs1 : RegIdx) (shamt : BitVec 5) : Statement (.slli rd rs1 shamt) := of_opcode (by simp [encode]; rfl) (by decide)
theorem srli (rd rs1 : RegIdx) (shamt : BitVec 5) : Statement (.srli rd rs1 shamt) := of_opcode (by simp [encode]; rfl) (by decide)
theorem srai (rd rs1 : RegIdx) (shamt : BitVec 5) : Statement (.srai rd rs1 shamt) := of_opcode (by simp [encode]; rfl) (by decide)
theorem add (rd rs1 rs2 : RegIdx) : Statement (.add rd rs1 rs2) := of_opcode (by simp [encode]; rfl) (by decide)
theorem sub (rd rs1 rs2 : RegIdx) : Statement (.sub rd rs1 rs2) := of_opcode (by simp [encode]; rfl) (by decide)
theorem sll (rd rs1 rs2 : RegIdx) : Statement (.sll rd rs1 rs2) := of_opcode (by simp [encode]; rfl) (by decide)
theorem slt (rd rs1 rs2 : RegIdx) : Statement (.slt rd rs1 rs2) := of_opcode (by simp [encode]; rfl) (by decide)
theorem sltu (rd rs1 rs2 : RegIdx) : Statement (.sltu rd rs1 rs2) := of_opcode (by simp [encode]; rfl) (by decide)
theorem xor (rd rs1 rs2 : RegIdx) : Statement (.xor rd rs1 rs2) := of_opcode (by simp [encode]; rfl) (by decide)
theorem srl (rd rs1 rs2 : RegIdx) : Statement (.srl rd rs1 rs2) := of_opcode (by simp [encode]; rfl) (by decide)
theorem sra (rd rs1 rs2 : RegIdx) : Statement (.sra rd rs1 rs2) := of_opcode (by simp [encode]; rfl) (by decide)
theorem or (rd rs1 rs2 : RegIdx) : Statement (.or rd rs1 rs2) := of_opcode (by simp [encode]; rfl) (by decide)
theorem and (rd rs1 rs2 : RegIdx) : Statement (.and rd rs1 rs2) := of_opcode (by simp [encode]; rfl) (by decide)
theorem fence (rd rs1 : RegIdx) (imm : BitVec 12) : Statement (.fence rd rs1 imm) := of_opcode (by simp [encode]; rfl) (by decide)
theorem fencei (rd rs1 : RegIdx) (imm : BitVec 12) : Statement (.fencei rd rs1 imm) := of_opcode (by simp [encode]; rfl) (by decide)
theorem ecall : Statement .ecall := by unfold Statement; decide
theorem ebreak : Statement .ebreak := by unfold Statement; decide

end Sys2Proof.Laws.LowBits
end

