-- ==== Sys2Proof/Tests/Slice0.lean ====
section
/-! SUPPORT. Tests of the model on words and values the spec gives (its examples in files 41 to 48, its vectors in file 95),
and a witness for every statement that has hypotheses. -/

open Sys2Proof Sys2Proof.Machine Sys2Proof.Claims

namespace Sys2Proof.Tests

/-! ## Helpers -/

/-- The build with all 37 instructions and the build without sub-word accesses, both with 256 words (spec 95, preamble). -/
def full : Config := { memWords := 256, subwordLs := true }
def plain : Config := { memWords := 256, subwordLs := false }

/-- A Ready state of build `c` at `pc` with word `w` there, some registers and some memory words set. -/
def boot (c : Config) (pc : Word) (w : Word) (regs : List (RegIdx × Word)) (cells : List (Nat × Word)) : State :=
  let s := regs.foldl (fun s p => s.writeReg p.1 p.2) { State.initial c [] with pc := pc }
  let m := cells.foldl (fun m p => Memory.writeWord m p.1 p.2) s.mem
  ({ s with mem := m } : State).placeWord w

/-- What `f` reads in the next state, none where a step answers no next state. -/
def got {α : Type} (f : State → α) (s : State) : Option α :=
  match step s with
  | .next t => some (f t)
  | .fault _ => none
  | .refused _ => none

/-- Class R: `x5 = a`, `x6 = b`, one step of `w`; `x7` after it. -/
def regStep (w a b : Word) : Option Word := got (·.readReg 7#5) (boot plain 0#32 w [(5#5, a), (6#5, b)] [])
/-- Class I: `x5 = a`, one step of `w`; `x6` after it. -/
def immStep (w a : Word) : Option Word := got (·.readReg 6#5) (boot plain 0#32 w [(5#5, a)] [])
/-- A branch with `x1 = a`, `x2 = b` at `pc = 0`: the PC after it and whether it was taken. -/
def branchStep (w a b : Word) : Option (Word × Bool) :=
  got (fun t => (t.pc, t.taken)) (boot plain 0#32 w [(1#5, a), (2#5, b)] [])
/-- A load into `x6` with `x5 = 2` and `M[10] = v`. -/
def loadStep (w v : Word) : Option Word := got (·.readReg 6#5) (boot full 0#32 w [(5#5, 2#32)] [(10, v)])
/-- A store of `x6 = v` with `x5 = 2` and `M[10] = old`: `M[10]` after it. -/
def storeStep (w v old : Word) : Option Word :=
  got (·.mem.readWord 10) (boot full 0#32 w [(5#5, 2#32), (6#5, v)] [(10, old)])
/-- The error record after one step of `w` at `pc`. -/
def errStep (c : Config) (pc w : Word) : Option (Option ErrRecord) := got (·.err) (boot c pc w [] [])

/-! ## WellFormed: an ill-formed term for each instruction it checks (spec 30 R60 step 3; 48 R150) -/

theorem test_wellFormed_lb : Instr.wellFormed plain (.lb 6#5 5#5 8#12) = false := by decide
theorem test_wellFormed_lh : Instr.wellFormed plain (.lh 6#5 5#5 8#12) = false := by decide
theorem test_wellFormed_lbu : Instr.wellFormed plain (.lbu 6#5 5#5 8#12) = false := by decide
theorem test_wellFormed_lhu : Instr.wellFormed plain (.lhu 6#5 5#5 8#12) = false := by decide
theorem test_wellFormed_sb : Instr.wellFormed plain (.sb 6#5 5#5 8#12) = false := by decide
theorem test_wellFormed_sh : Instr.wellFormed plain (.sh 6#5 5#5 8#12) = false := by decide
theorem test_wellFormed_lw : Instr.wellFormed plain (.lw 6#5 5#5 8#12) = true := by decide
theorem test_wellFormed_full : Instr.wellFormed full (.sh 6#5 5#5 8#12) = true := by decide

/-! ## Decoding: a word of each instruction, written out field by field from the formats of spec 30 R48 to R53 and the map of
R60; each is the word of an example of the spec -/

theorem test_decode_lui : decode full (0b00010010001101000101#20 ++ 0b00101#5 ++ 0b0110111#7) = .instr (.lui 5#5 0x12345#20) := by decide
theorem test_decode_auipc : decode full (0b00000000000000000001#20 ++ 0b00101#5 ++ 0b0010111#7) = .instr (.auipc 5#5 1#20) := by decide
theorem test_decode_jal : decode full (0b1#1 ++ 0b1111111100#10 ++ 0b1#1 ++ 0b11111111#8 ++ 0b00000#5 ++ 0b1101111#7) = .instr (.jal 0#5 (BitVec.ofInt 19 (-2))) := by decide
theorem test_decode_jalr : decode full (0b000000000011#12 ++ 0b00101#5 ++ 0b000#3 ++ 0b00001#5 ++ 0b1100111#7) = .instr (.jalr 1#5 5#5 3#12) := by decide
theorem test_decode_beq : decode full (0b0#1 ++ 0b000000#6 ++ 0b00010#5 ++ 0b00001#5 ++ 0b000#3 ++ 0b0100#4 ++ 0b0#1 ++ 0b1100011#7) = .instr (.beq 1#5 2#5 2#11) := by decide
theorem test_decode_bne : decode full (0b1#1 ++ 0b111111#6 ++ 0b00010#5 ++ 0b00001#5 ++ 0b001#3 ++ 0b1010#4 ++ 0b1#1 ++ 0b1100011#7) = .instr (.bne 1#5 2#5 (BitVec.ofInt 11 (-3))) := by decide
theorem test_decode_blt : decode full (0b0#1 ++ 0b000000#6 ++ 0b00010#5 ++ 0b00001#5 ++ 0b100#3 ++ 0b0100#4 ++ 0b0#1 ++ 0b1100011#7) = .instr (.blt 1#5 2#5 2#11) := by decide
theorem test_decode_bge : decode full (0b0#1 ++ 0b000000#6 ++ 0b00010#5 ++ 0b00001#5 ++ 0b101#3 ++ 0b0100#4 ++ 0b0#1 ++ 0b1100011#7) = .instr (.bge 1#5 2#5 2#11) := by decide
theorem test_decode_bltu : decode full (0b0#1 ++ 0b000000#6 ++ 0b00010#5 ++ 0b00001#5 ++ 0b110#3 ++ 0b0100#4 ++ 0b0#1 ++ 0b1100011#7) = .instr (.bltu 1#5 2#5 2#11) := by decide
theorem test_decode_bgeu : decode full (0b0#1 ++ 0b000000#6 ++ 0b00010#5 ++ 0b00001#5 ++ 0b111#3 ++ 0b0100#4 ++ 0b0#1 ++ 0b1100011#7) = .instr (.bgeu 1#5 2#5 2#11) := by decide
theorem test_decode_lb : decode full (0b000000001000#12 ++ 0b00101#5 ++ 0b000#3 ++ 0b00110#5 ++ 0b0000011#7) = .instr (.lb 6#5 5#5 8#12) := by decide
theorem test_decode_lh : decode full (0b000000001000#12 ++ 0b00101#5 ++ 0b001#3 ++ 0b00110#5 ++ 0b0000011#7) = .instr (.lh 6#5 5#5 8#12) := by decide
theorem test_decode_lw : decode full (0b000000001000#12 ++ 0b00101#5 ++ 0b010#3 ++ 0b00110#5 ++ 0b0000011#7) = .instr (.lw 6#5 5#5 8#12) := by decide
theorem test_decode_lbu : decode full (0b000000001000#12 ++ 0b00101#5 ++ 0b100#3 ++ 0b00110#5 ++ 0b0000011#7) = .instr (.lbu 6#5 5#5 8#12) := by decide
theorem test_decode_lhu : decode full (0b000000001000#12 ++ 0b00101#5 ++ 0b101#3 ++ 0b00110#5 ++ 0b0000011#7) = .instr (.lhu 6#5 5#5 8#12) := by decide
theorem test_decode_sb : decode full (0b0000000#7 ++ 0b00110#5 ++ 0b00101#5 ++ 0b000#3 ++ 0b01000#5 ++ 0b0100011#7) = .instr (.sb 6#5 5#5 8#12) := by decide
theorem test_decode_sh : decode full (0b0000000#7 ++ 0b00110#5 ++ 0b00101#5 ++ 0b001#3 ++ 0b01000#5 ++ 0b0100011#7) = .instr (.sh 6#5 5#5 8#12) := by decide
theorem test_decode_sw : decode full (0b1111111#7 ++ 0b00110#5 ++ 0b00101#5 ++ 0b010#3 ++ 0b11100#5 ++ 0b0100011#7) = .instr (.sw 6#5 5#5 (BitVec.ofInt 12 (-4))) := by decide
theorem test_decode_addi : decode full (0b111111111111#12 ++ 0b00101#5 ++ 0b000#3 ++ 0b00101#5 ++ 0b0010011#7) = .instr (.addi 5#5 5#5 (BitVec.ofInt 12 (-1))) := by decide
theorem test_decode_slti : decode full (0b111111111111#12 ++ 0b00101#5 ++ 0b010#3 ++ 0b00110#5 ++ 0b0010011#7) = .instr (.slti 6#5 5#5 (BitVec.ofInt 12 (-1))) := by decide
theorem test_decode_sltiu : decode full (0b000000000001#12 ++ 0b00101#5 ++ 0b011#3 ++ 0b00110#5 ++ 0b0010011#7) = .instr (.sltiu 6#5 5#5 1#12) := by decide
theorem test_decode_xori : decode full (0b111111111111#12 ++ 0b00101#5 ++ 0b100#3 ++ 0b00110#5 ++ 0b0010011#7) = .instr (.xori 6#5 5#5 (BitVec.ofInt 12 (-1))) := by decide
theorem test_decode_ori : decode full (0b111100000000#12 ++ 0b00101#5 ++ 0b110#3 ++ 0b00110#5 ++ 0b0010011#7) = .instr (.ori 6#5 5#5 (BitVec.ofInt 12 (-256))) := by decide
theorem test_decode_andi : decode full (0b000011110000#12 ++ 0b00101#5 ++ 0b111#3 ++ 0b00110#5 ++ 0b0010011#7) = .instr (.andi 6#5 5#5 240#12) := by decide
theorem test_decode_slli : decode full (0b0000000#7 ++ 0b00100#5 ++ 0b00101#5 ++ 0b001#3 ++ 0b00110#5 ++ 0b0010011#7) = .instr (.slli 6#5 5#5 4#5) := by decide
theorem test_decode_srli : decode full (0b0000000#7 ++ 0b00100#5 ++ 0b00101#5 ++ 0b101#3 ++ 0b00110#5 ++ 0b0010011#7) = .instr (.srli 6#5 5#5 4#5) := by decide
theorem test_decode_srai : decode full (0b0100000#7 ++ 0b00100#5 ++ 0b00101#5 ++ 0b101#3 ++ 0b00110#5 ++ 0b0010011#7) = .instr (.srai 6#5 5#5 4#5) := by decide
theorem test_decode_add : decode full (0b0000000#7 ++ 0b00110#5 ++ 0b00101#5 ++ 0b000#3 ++ 0b00111#5 ++ 0b0110011#7) = .instr (.add 7#5 5#5 6#5) := by decide
theorem test_decode_sub : decode full (0b0100000#7 ++ 0b00110#5 ++ 0b00101#5 ++ 0b000#3 ++ 0b00111#5 ++ 0b0110011#7) = .instr (.sub 7#5 5#5 6#5) := by decide
theorem test_decode_sll : decode full (0b0000000#7 ++ 0b00110#5 ++ 0b00101#5 ++ 0b001#3 ++ 0b00111#5 ++ 0b0110011#7) = .instr (.sll 7#5 5#5 6#5) := by decide
theorem test_decode_slt : decode full (0b0000000#7 ++ 0b00110#5 ++ 0b00101#5 ++ 0b010#3 ++ 0b00111#5 ++ 0b0110011#7) = .instr (.slt 7#5 5#5 6#5) := by decide
theorem test_decode_sltu : decode full (0b0000000#7 ++ 0b00110#5 ++ 0b00101#5 ++ 0b011#3 ++ 0b00111#5 ++ 0b0110011#7) = .instr (.sltu 7#5 5#5 6#5) := by decide
theorem test_decode_xor : decode full (0b0000000#7 ++ 0b00110#5 ++ 0b00101#5 ++ 0b100#3 ++ 0b00111#5 ++ 0b0110011#7) = .instr (.xor 7#5 5#5 6#5) := by decide
theorem test_decode_srl : decode full (0b0000000#7 ++ 0b00110#5 ++ 0b00101#5 ++ 0b101#3 ++ 0b00111#5 ++ 0b0110011#7) = .instr (.srl 7#5 5#5 6#5) := by decide
theorem test_decode_sra : decode full (0b0100000#7 ++ 0b00110#5 ++ 0b00101#5 ++ 0b101#3 ++ 0b00111#5 ++ 0b0110011#7) = .instr (.sra 7#5 5#5 6#5) := by decide
theorem test_decode_or : decode full (0b0000000#7 ++ 0b00110#5 ++ 0b00101#5 ++ 0b110#3 ++ 0b00111#5 ++ 0b0110011#7) = .instr (.or 7#5 5#5 6#5) := by decide
theorem test_decode_and : decode full (0b0000000#7 ++ 0b00110#5 ++ 0b00101#5 ++ 0b111#3 ++ 0b00111#5 ++ 0b0110011#7) = .instr (.and 7#5 5#5 6#5) := by decide
theorem test_decode_fence : decode full (0b000011111111#12 ++ 0b00000#5 ++ 0b000#3 ++ 0b00000#5 ++ 0b0001111#7) = .instr (.fence 0#5 0#5 0x0FF#12) := by decide
theorem test_decode_fencei : decode full (0b000000000000#12 ++ 0b00000#5 ++ 0b001#3 ++ 0b00000#5 ++ 0b0001111#7) = .instr (.fencei 0#5 0#5 0#12) := by decide
theorem test_decode_ecall : decode full (0b000000000000#12 ++ 0b00000#5 ++ 0b000#3 ++ 0b00000#5 ++ 0b1110011#7) = .instr (.ecall) := by decide
theorem test_decode_ebreak : decode full (0b000000000001#12 ++ 0b00000#5 ++ 0b000#3 ++ 0b00000#5 ++ 0b1110011#7) = .instr (.ebreak) := by decide

/-- Extreme offsets and immediates (spec 95 V-C). -/
theorem test_decode_branch_ends : decode plain 0x7E000EE3#32 = .instr (.beq 0#5 0#5 1023#11) ∧
    decode plain 0x80000063#32 = .instr (.beq 0#5 0#5 (BitVec.ofInt 11 (-1024))) ∧
    decode plain 0x40418063#32 = .instr (.beq 3#5 4#5 256#11) := by decide
theorem test_decode_jal_ends : decode plain 0x7FDFF06F#32 = .instr (.jal 0#5 262143#19) ∧
    decode plain 0x8000006F#32 = .instr (.jal 0#5 (BitVec.ofInt 19 (-262144))) ∧
    decode plain 0x001000EF#32 = .instr (.jal 1#5 512#19) := by decide
theorem test_decode_store_ends : decode plain 0x81FF2023#32 = .instr (.sw 31#5 30#5 (BitVec.ofInt 12 (-2048))) ∧
    decode plain 0x7FFF2FA3#32 = .instr (.sw 31#5 30#5 2047#12) := by decide
/-- Words the decoder refuses, by the reason (spec 95 V-E3 to V-E5; 48 R150). -/
theorem test_decode_reject : decode full 0x00208163#32 = .reject .offsetNotWhole ∧
    decode full 0x0020006F#32 = .reject .offsetNotWhole ∧ decode full 0xFE209BE3#32 = .reject .offsetNotWhole ∧
    decode full 0x00000000#32 = .reject .noRow ∧ decode full 0xFFFFFFFF#32 = .reject .noRow ∧
    decode full 0x4242D313#32 = .reject .noRow ∧ decode full 0x30200073#32 = .reject .noRow ∧
    decode plain 0x00828303#32 = .reject .subwordAbsent := by decide

/-! ## The host's two questions -/

theorem test_table_word : decodeTableWord 32 0x006283B3 = some (.add 7#5 5#5 6#5) ∧ decodeTableWord 32 0 = none := by decide
theorem test_fetch_word : got (fun t => (t.pc, t.readReg 5#5)) (State.reset.withFetchWord 32 0x00A00293) = some (1#32, 10#32) := by
  decide
theorem test_reset_memory : State.reset.mem.wf = true := by decide
theorem test_reset_halted : State.reset.status = .halted := by decide

/-! ## Class R (spec 41, 95 V-A) -/

theorem test_add : regStep 0x006283B3#32 0x0000000A#32 0x00000014#32 = some 0x0000001E#32 ∧
    regStep 0x006283B3#32 0xFFFFFFFF#32 0x00000001#32 = some 0x00000000#32 := by decide
theorem test_sub : regStep 0x406283B3#32 0x0000000A#32 0x00000014#32 = some 0xFFFFFFF6#32 ∧
    regStep 0x406283B3#32 0x80000000#32 0x00000001#32 = some 0x7FFFFFFF#32 := by decide
theorem test_and : regStep 0x0062F3B3#32 0x0000FF0F#32 0x00F0F0FF#32 = some 0x0000F00F#32 := by decide
theorem test_or : regStep 0x0062E3B3#32 0x0000FF0F#32 0x00F0F0FF#32 = some 0x00F0FFFF#32 := by decide
theorem test_xor : regStep 0x0062C3B3#32 0x0000FF0F#32 0x00F0F0FF#32 = some 0x00F00FF0#32 := by decide
theorem test_sll : regStep 0x006293B3#32 0x00000001#32 0x00000023#32 = some 0x00000008#32 ∧
    regStep 0x006293B3#32 0x00000001#32 0x00000020#32 = some 0x00000001#32 := by decide
theorem test_srl : regStep 0x0062D3B3#32 0x80000000#32 0x00000004#32 = some 0x08000000#32 ∧
    regStep 0x0062D3B3#32 0x80000000#32 0xFFFFFFFF#32 = some 0x00000001#32 := by decide
theorem test_sra : regStep 0x4062D3B3#32 0x80000000#32 0x00000004#32 = some 0xF8000000#32 ∧
    regStep 0x4062D3B3#32 0x80000000#32 0x0000003F#32 = some 0xFFFFFFFF#32 := by decide
theorem test_slt : regStep 0x0062A3B3#32 0xFFFFFFFF#32 0x00000001#32 = some 0x00000001#32 ∧
    regStep 0x0062A3B3#32 0x00000005#32 0x00000005#32 = some 0x00000000#32 := by decide
theorem test_sltu : regStep 0x0062B3B3#32 0xFFFFFFFF#32 0x00000001#32 = some 0x00000000#32 ∧
    regStep 0x0062B3B3#32 0x00000000#32 0x00000001#32 = some 0x00000001#32 := by decide
/-- A destination that is a source, and `x0` as destination with its snapshot (spec 95 V-A). -/
theorem test_add_same : got (·.readReg 5#5) (boot plain 0#32 0x005282B3#32 [(5#5, 0x40000001#32)] []) = some 0x80000002#32 := by
  decide
theorem test_reg_x0 : got (fun t => (t.readReg 0#5, t.pc, t.snap)) (boot plain 0#32 0x00628033#32 [(5#5, 3#32), (6#5, 4#32)] []) =
    some (0#32, 1#32, some ⟨.r, .add, true, false, true, false, false, false⟩) := by decide

/-! ## Class I (spec 42, 95 V-B) -/

theorem test_addi : immStep 0x00128313#32 0x7FFFFFFF#32 = some 0x80000000#32 ∧
    immStep 0x80028313#32 0x00000000#32 = some 0xFFFFF800#32 := by decide
theorem test_andi : immStep 0x8002F313#32 0xFFFFFFFF#32 = some 0xFFFFF800#32 ∧
    immStep 0x0F02F313#32 0x12345678#32 = some 0x00000070#32 := by decide
theorem test_ori : immStep 0x8002E313#32 0x00000000#32 = some 0xFFFFF800#32 ∧
    immStep 0xF002E313#32 0x00000012#32 = some 0xFFFFFF12#32 := by decide
theorem test_xori : immStep 0xFFF2C313#32 0xAAAAAAAA#32 = some 0x55555555#32 := by decide
theorem test_slti : immStep 0x8002A313#32 0x80000000#32 = some 0x00000001#32 ∧
    immStep 0x0002A313#32 0x00000000#32 = some 0x00000000#32 ∧
    immStep 0xFFF2A313#32 0xFFFFFFFE#32 = some 0x00000001#32 := by decide
theorem test_sltiu : immStep 0xFFF2B313#32 0x00000005#32 = some 0x00000001#32 ∧
    immStep 0x8002B313#32 0xFFFFF7FF#32 = some 0x00000001#32 ∧
    immStep 0x8002B313#32 0xFFFFF800#32 = some 0x00000000#32 := by decide
theorem test_slli : immStep 0x01F29313#32 0xFFFFFFFF#32 = some 0x80000000#32 ∧
    immStep 0x00029313#32 0xDEADBEEF#32 = some 0xDEADBEEF#32 := by decide
theorem test_srli : immStep 0x01F2D313#32 0xFFFFFFFF#32 = some 0x00000001#32 ∧
    immStep 0x0042D313#32 0x87654321#32 = some 0x08765432#32 := by decide
theorem test_srai : immStep 0x41F2D313#32 0xFFFFFFFF#32 = some 0xFFFFFFFF#32 ∧
    immStep 0x4042D313#32 0x87654321#32 = some 0xF8765432#32 := by decide
theorem test_imm_snapshot : got (fun t => (t.snap, t.taken, t.err)) (boot plain 0#32 0x00500013#32 [] []) =
    some (some ⟨.i, .add, true, true, true, false, false, false⟩, false, none) := by decide

/-! ## Loads and stores (spec 43, 44, 95 V-D) -/

theorem test_lw : loadStep 0x0082A303#32 0x1234ABCD#32 = some 0x1234ABCD#32 := by decide
theorem test_lh : loadStep 0x00829303#32 0x1234ABCD#32 = some 0xFFFFABCD#32 := by decide
theorem test_lhu : loadStep 0x0082D303#32 0x1234ABCD#32 = some 0x0000ABCD#32 := by decide
theorem test_lb : loadStep 0x00828303#32 0x1234ABCD#32 = some 0xFFFFFFCD#32 := by decide
theorem test_lbu : loadStep 0x0082C303#32 0x1234ABCD#32 = some 0x000000CD#32 := by decide
/-- Word 255 is the last; 256 and a negative address read 0 (spec 95 V-D, `lw x7, 0(x5)`, `lw x8, 1(x5)`, `lw x9, -256(x5)`). -/
theorem test_lw_bounds : got (·.readReg 7#5) (boot plain 0#32 0x0002A383#32 [(5#5, 255#32)] [(255, 77#32)]) = some 77#32 ∧
    got (·.readReg 8#5) (boot plain 0#32 0x0012A403#32 [(5#5, 255#32)] [(255, 77#32)]) = some 0#32 ∧
    got (·.readReg 9#5) (boot plain 0#32 0xF002A483#32 [(5#5, 255#32)] [(255, 77#32)]) = some 0#32 := by decide
theorem test_lh_absent : errStep plain 4#32 0x00829303#32 = some (some ⟨.decodeError, 4#32, 0x00829303#32⟩) := by decide
theorem test_lb_absent : errStep plain 4#32 0x00828303#32 = some (some ⟨.decodeError, 4#32, 0x00828303#32⟩) := by decide
theorem test_lhu_absent : errStep plain 4#32 0x0082D303#32 = some (some ⟨.decodeError, 4#32, 0x0082D303#32⟩) := by decide
theorem test_lbu_absent : errStep plain 4#32 0x0082C303#32 = some (some ⟨.decodeError, 4#32, 0x0082C303#32⟩) := by decide
theorem test_sw : storeStep 0x0062A423#32 0xAAAA5555#32 0x11223344#32 = some 0xAAAA5555#32 := by decide
theorem test_sh : storeStep 0x00629423#32 0xAAAA5555#32 0x11223344#32 = some 0x11225555#32 := by decide
theorem test_sb : storeStep 0x00628423#32 0xAAAA5555#32 0x11223344#32 = some 0x11223355#32 := by decide
/-- `sw x6, 0(x5)` and `sw x6, 1(x5)` with `x5 = 255`: the second is out of range and stores nothing (spec 95 V-D). -/
theorem test_sw_bounds : got (·.mem.readWord 255) (boot plain 0#32 0x0062A023#32 [(5#5, 255#32), (6#5, 77#32)] []) = some 77#32 ∧
    got (fun t => (t.mem, t.err, t.pc)) (boot plain 0#32 0x0062A0A3#32 [(5#5, 255#32), (6#5, 77#32)] []) =
      some ([], none, 1#32) := by decide
theorem test_sh_absent : errStep plain 4#32 0x00629423#32 = some (some ⟨.decodeError, 4#32, 0x00629423#32⟩) := by decide
theorem test_sb_absent : errStep plain 4#32 0x00628423#32 = some (some ⟨.decodeError, 4#32, 0x00628423#32⟩) := by decide

/-! ## Control transfer (spec 45, 46, 95 V-E1, V-E2) -/

theorem test_beq : branchStep 0x00208463#32 0x80000000#32 0x80000000#32 = some (2#32, true) ∧
    branchStep 0x00208463#32 0x00000001#32 0x00000002#32 = some (1#32, false) := by decide
theorem test_blt : branchStep 0x0020C463#32 0xFFFFFFFF#32 0x00000001#32 = some (2#32, true) ∧
    branchStep 0x0020C463#32 0x00000001#32 0xFFFFFFFF#32 = some (1#32, false) := by decide
theorem test_bge : branchStep 0x0020D463#32 0x00000007#32 0x00000007#32 = some (2#32, true) ∧
    branchStep 0x0020D463#32 0xFFFFFFFF#32 0x00000001#32 = some (1#32, false) := by decide
theorem test_bltu : branchStep 0x0020E463#32 0x00000001#32 0xFFFFFFFF#32 = some (2#32, true) ∧
    branchStep 0x0020E463#32 0xFFFFFFFF#32 0x00000001#32 = some (1#32, false) := by decide
theorem test_bgeu : branchStep 0x0020F463#32 0xFFFFFFFF#32 0x00000001#32 = some (2#32, true) ∧
    branchStep 0x0020F463#32 0x00000001#32 0xFFFFFFFF#32 = some (1#32, false) := by decide
/-- `bne x1, x2, -3` at `pc = 7` (spec 45 R134). -/
theorem test_bne : got (·.pc) (boot plain 7#32 0xFE209AE3#32 [(1#5, 1#32)] []) = some 4#32 ∧
    got (·.pc) (boot plain 7#32 0xFE209AE3#32 [] []) = some 8#32 := by decide
theorem test_branch_snapshot : got (·.snap) (boot plain 0#32 0x00208463#32 [(1#5, 1#32)] []) =
    some (some ⟨.branch, .sub, false, false, false, false, true, false⟩) := by decide
theorem test_jal : got (fun t => (t.readReg 1#5, t.pc, t.taken)) (boot plain 5#32 0x008000EF#32 [] []) =
    some (6#32, 7#32, true) := by decide
/-- The PC wraps (spec 95 V-E8). -/
theorem test_jal_wraps : got (fun t => (t.readReg 2#5, t.pc)) (boot plain 1#32 0xFEDFF16F#32 [] []) =
    some (2#32, 0xFFFFFFFC#32) := by decide
/-- The target uses the old `x1` and keeps bit 0 (spec 95 V-E2). -/
theorem test_jalr : got (fun t => (t.readReg 1#5, t.pc)) (boot plain 9#32 0x000080E7#32 [(1#5, 4#32)] []) =
    some (10#32, 4#32) := by decide
theorem test_jalr_odd : got (·.pc) (boot plain 9#32 0x00008067#32 [(1#5, 7#32)] []) = some 7#32 := by decide

/-! ## Class Upper (spec 47, 95 V-E6) -/

theorem test_lui : got (·.readReg 5#5) (boot plain 0#32 0xFFFFF2B7#32 [] []) = some 0xFFFFF000#32 := by decide
theorem test_auipc : got (·.readReg 5#5) (boot plain 3#32 0x00001297#32 [] []) = some 0x00001003#32 := by decide

/-! ## Errors and status (spec 48, 60, 95 S5, V-E3 to V-E7) -/

theorem test_fence : errStep full 2#32 0x0FF0000F#32 = some (some ⟨.decodeError, 2#32, 0x0FF0000F#32⟩) := by decide
theorem test_fencei : errStep full 2#32 0x0000100F#32 = some (some ⟨.decodeError, 2#32, 0x0000100F#32⟩) := by decide
theorem test_ecall : errStep full 0#32 0x00000073#32 = some (some ⟨.decodeError, 0#32, 0x00000073#32⟩) := by decide
theorem test_ebreak : errStep full 4#32 0x00100073#32 = some (some ⟨.decodeError, 4#32, 0x00100073#32⟩) := by decide
/-- A branch that would not be taken still fails where its byte offset is not whole (spec 95 V-E3). -/
theorem test_operand_error : got (fun t => (t.errCode, t.pc, t.snap)) (boot plain 1#32 0x00208163#32 [(1#5, 1#32)] []) =
    some (2#3, 1#32, none) := by decide
theorem test_error_is_sticky : got (fun t => t.status) ((boot plain 1#32 0#32 [] []).raise .decodeError 0#32) = some .error := by
  decide
theorem test_reset_keeps_program : ((boot plain 0#32 0x00A00293#32 [(5#5, 1#32)] [(3, 9#32)]).hostReset.view).regs[5]? = some 0#32 ∧
    (boot plain 0#32 0x00A00293#32 [(5#5, 1#32)] [(3, 9#32)]).hostReset.progLen = 1 := by decide

/-! ## Witnesses: for every statement with hypotheses, a state and operands that meet all of them -/

/-- A Ready state with `w` at index 0 in the build with sub-word accesses. -/
def ready (w : Word) : State := boot full 0#32 w [(1#5, 1#32), (5#5, 2#32), (6#5, 77#32)] [(10, 0x1234ABCD#32)]
/-- The same without sub-word accesses. -/
def readyPlain (w : Word) : State := boot plain 0#32 w [(1#5, 1#32), (5#5, 2#32), (6#5, 77#32)] []

theorem witness_DecodeOfEncode : Instr.wellFormed plain (.add 31#5 31#5 31#5) = true ∧
    Instr.wellFormed full (.sb 31#5 0#5 0xFFF#12) = true ∧ Instr.wellFormed plain .ebreak = true := by decide
theorem witness_EncodeOfDecode : decode plain 0x80000063#32 = .instr (.beq 0#5 0#5 (BitVec.ofInt 11 (-1024))) ∧
    decode full 0x81FF2023#32 = .instr (.sw 31#5 30#5 0x800#12) := by decide
theorem witness_OpcodeRowsExclusive : ∃ (h : 27 < rows.length), (rows[27]).pattern.fits 0x006283B3#32 = true := ⟨by decide, by decide⟩
theorem witness_ByteOffsetsBecomeInstructionOffsets :
    decode plain 0x80000063#32 = .instr (.beq 0#5 0#5 (BitVec.ofInt 11 (-1024))) ∧
    decode plain 0x7E000EE3#32 = .instr (.beq 0#5 0#5 1023#11) ∧
    decode plain 0x8000006F#32 = .instr (.jal 0#5 (BitVec.ofInt 19 (-262144))) ∧
    decode plain 0x7FDFF06F#32 = .instr (.jal 0#5 262143#19) := by decide
theorem witness_OperandErrorsAreOddOffsets : HalfOffsetWord 0x00208163#32 ∧ HalfOffsetWord 0x0020006F#32 ∧
    (ready 0x00208163#32).status = .ready ∧ HalfOffsetWord (ready 0x00208163#32).fetchWord ∧
    (readyPlain 0x0020006F#32).status = .ready ∧ HalfOffsetWord (readyPlain 0x0020006F#32).fetchWord := by
  unfold HalfOffsetWord; decide
theorem witness_SubwordWordsAbsent : (readyPlain 0x00628423#32).status = .ready ∧
    (readyPlain 0x00628423#32).cfg.subwordLs = false ∧ SubwordWord (readyPlain 0x00628423#32).fetchWord ∧
    (readyPlain 0x0082D303#32).status = .ready ∧ SubwordWord (readyPlain 0x0082D303#32).fetchWord := by
  unfold SubwordWord; decide
theorem witness_FenceWordsFail : (ready 0x0FF0000F#32).status = .ready ∧
    (ready 0x0FF0000F#32).fetchWord.extractLsb' 0 7 = 0b0001111#7 ∧ (ready 0xFFFFFF8F#32).status = .ready ∧
    (ready 0xFFFFFF8F#32).fetchWord.extractLsb' 0 7 = 0b0001111#7 := by decide
theorem witness_SystemWordsFail : (ready 0x00000073#32).status = .ready ∧
    (ready 0x00000073#32).fetchWord.extractLsb' 0 7 = 0b1110011#7 ∧ (ready 0xB00022F3#32).status = .ready ∧
    (ready 0xB00022F3#32).fetchWord.extractLsb' 0 7 = 0b1110011#7 := by decide
theorem witness_OtherWordsFail : (ready 0x30200073#32).status = .ready ∧
    ∀ r ∈ rows, r.pattern.fits (ready 0x30200073#32).fetchWord = false := by decide
/-- The hypotheses of OtherWordsFail, second form, at the word `w`. -/
def AbsentAt (w : Word) : Prop := (ready w).status = .ready ∧ StandardButAbsent (ready w).fetchWord

/-! One word of each class of spec 48 R149: all zero, `mul`, and neighbours of a shift, a load, a store, a branch, a `jalr` and
an unused opcode (spec 95 V-E5). -/

theorem witness_OtherWordsFail_zero : AbsentAt 0x00000000#32 := by unfold AbsentAt StandardButAbsent; decide
theorem witness_OtherWordsFail_mul : AbsentAt 0x026283B3#32 := by unfold AbsentAt StandardButAbsent; decide
theorem witness_OtherWordsFail_slli : AbsentAt 0x40001013#32 := by unfold AbsentAt StandardButAbsent; decide
theorem witness_OtherWordsFail_srai : AbsentAt 0x4242D313#32 := by unfold AbsentAt StandardButAbsent; decide
theorem witness_OtherWordsFail_load : AbsentAt 0x00003003#32 := by unfold AbsentAt StandardButAbsent; decide
theorem witness_OtherWordsFail_store : AbsentAt 0x00003023#32 := by unfold AbsentAt StandardButAbsent; decide
theorem witness_OtherWordsFail_branch : AbsentAt 0x00002063#32 := by unfold AbsentAt StandardButAbsent; decide
theorem witness_OtherWordsFail_jalr : AbsentAt 0x00001067#32 := by unfold AbsentAt StandardButAbsent; decide
theorem witness_OtherWordsFail_opcode : AbsentAt 0xFFFFFFFF#32 := by unfold AbsentAt StandardButAbsent; decide
theorem witness_SubwordInstructionsAbsent : (readyPlain 0#32).cfg.subwordLs = false ∧ ∀ r rs1 : RegIdx, ∀ imm : BitVec 12,
    Instr.sb r rs1 imm ∈ [Instr.lb r rs1 imm, .lh r rs1 imm, .lbu r rs1 imm, .lhu r rs1 imm, .sb r rs1 imm, .sh r rs1 imm] :=
  ⟨by decide, by simp⟩
theorem witness_StepRunsDecoded : (ready 0x006283B3#32).status = .ready ∧
    decode (ready 0x006283B3#32).cfg (ready 0x006283B3#32).fetchWord = .instr (.add 7#5 5#5 6#5) ∧
    (readyPlain 0x00628423#32).status = .ready ∧
    decode (readyPlain 0x00628423#32).cfg (readyPlain 0x00628423#32).fetchWord = .reject .subwordAbsent := by decide
theorem witness_ErrorsArePrecise : (ready 0x00208163#32).status = .ready ∧
    wordError full (ready 0x00208163#32).fetchWord = some .operandError ∧
    wordError full (ready 0x00000073#32).fetchWord = some .decodeError ∧
    wordError plain (readyPlain 0x00628423#32).fetchWord = some .decodeError ∧
    wordError full (ready 0x006283B3#32).fetchWord = none := by decide
theorem witness_MisalignmentNeverRaised : ∃ s t e, step s = .next t ∧ t.err = some e :=
  ⟨ready 0x00208163#32, _, _, rfl, rfl⟩
theorem witness_NotReadyIsFixed : State.reset.status ≠ .ready ∧ ((ready 0#32).raise .decodeError 0#32).status ≠ .ready := by
  decide
theorem witness_StatusOutput : ({ ready 0x006283B3#32 with pc := 0#32 } : State).status = .ready ∧
    ({ ready 0x006283B3#32 with pc := 1#32 } : State).status = .halted ∧
    ({ ready 0x006283B3#32 with pc := 0xFFFFFFFF#32 } : State).status = .halted ∧
    ({ ready 0x006283B3#32 with pc := 1#32, err := some ⟨.decodeError, 1#32, 0#32⟩ } : State).status = .error := by decide

/-- A Ready state in the middle of a run meets the invariant: a store was the last step, one word of memory is set. -/
theorem witness_StepKeepsInvariant : ∃ s t : State, s.Inv ∧ step s = .next t ∧ s.mem ≠ [] ∧ s.snap ≠ none ∧ t.pc ≠ s.pc := by
  refine ⟨{ boot full 1#32 0x00002303#32 [(5#5, 42#32)] [(0, 42#32)] with
    snap := some (controlSignals .store .add) }, _, ?_, rfl, by decide, by decide, by decide⟩
  refine ⟨by decide, by decide, ?_, by decide, by decide, ?_, ⟨by decide, ?_⟩, ?_⟩
  · intro k hk
    change 256 ≤ k at hk
    have hm : (boot full 1#32 0x00002303#32 [(5#5, 42#32)] [(0, 42#32)]).mem = [(0, 42#8)] := by decide
    have hz : ∀ a, 0 < a → Memory.readByte [(0, 42#8)] a = 0#8 := by
      intro a ha
      simp [Memory.readByte, Memory.unlisted, Nat.ne_of_lt ha]
    simp only [hm, Memory.readWord, hz _ (by omega : 0 < 4 * k + 3), hz _ (by omega : 0 < 4 * k + 2),
      hz _ (by omega : 0 < 4 * k + 1), hz _ (by omega : 0 < 4 * k)]
    decide
  · rintro n ⟨⟩; decide
  · rintro n ⟨⟩; decide
  · intro e he; exact nomatch (show none = some e from he)
/-- A state in Error meets the invariant, so its clause about the error record is not empty. -/
theorem witness_StepKeepsInvariant_error : ((boot full 0#32 0x00208163#32 [] []).raise .operandError 0x00208163#32).Inv := by
  refine ⟨by decide, by decide, ?_, by decide, by decide, ?_, ⟨by decide, ?_⟩, ?_⟩
  · intro k _
    change Memory.readWord [] k = 0#32
    simp [Memory.readWord, Memory.readByte, Memory.unlisted]
  · intro n hn; exact nomatch (show none = some n from hn)
  · intro n hn; exact nomatch (show none = some n from hn)
  · rintro e ⟨⟩; decide
theorem witness_HostOperationsKeepInvariant : ∃ s : State, s.Inv ∧ [0x00A00293#32].length < 2 ^ 32 :=
  ⟨_, witness_StepKeepsInvariant_error, by decide⟩
theorem witness_ProgramNeverWritten : ∃ s t : State, step s = .next t ∧ t.mem ≠ s.mem := ⟨ready 0x0062A023#32, _, rfl, by decide⟩
theorem witness_SnapshotTellsWhatWasWritten :
    (∃ s t n, step s = .next t ∧ t.snap = some n ∧ n.wer = false ∧ t.mem ≠ s.mem) ∧
    (∃ s t n, step s = .next t ∧ t.snap = some n ∧ n.wem = false ∧ t.regs ≠ s.regs) ∧
    (∃ s t n, step s = .next t ∧ t.snap = some n ∧ s.status = .ready ∧ t.err = none ∧ t.taken = false) :=
  ⟨⟨ready 0x0062A023#32, _, _, rfl, rfl, by decide, by decide⟩, ⟨ready 0x006283B3#32, _, _, rfl, rfl, by decide, by decide⟩,
    ⟨ready 0x00208463#32, _, _, rfl, rfl, by decide, by decide, by decide⟩⟩
theorem witness_OneWritePerStep : ∃ s t u : State, s.mem.wf = true ∧ u.mem.wf = true ∧
    decode s.cfg s.fetchWord = .instr (.sb 6#5 5#5 8#12) ∧ step s = .next t ∧
    (s.effAddr 5#5 8#12).toNat < s.cfg.memWords ∧ t.mem ≠ s.mem ∧
    (∀ rs2 rs1 imm, ∀ i ∈ [Instr.sb rs2 rs1 imm, .sh rs2 rs1 imm, .sw rs2 rs1 imm], decode u.cfg u.fetchWord ≠ .instr i) ∧
    ∃ v, step u = .next v ∧ v.readReg 7#5 ≠ u.readReg 7#5 := by
  refine ⟨ready 0x00628423#32, _, ready 0x006283B3#32, by decide, by decide, by decide, rfl, by decide, by decide, ?_, _, rfl,
    by decide⟩
  intro rs2 rs1 imm i hi h
  rw [show decode _ _ = .instr (.add 7#5 5#5 6#5) by decide] at h
  cases h
  simp at hi
theorem witness_SnapshotNeverRead : ∃ s t : State, s.status = .ready ∧ step s = .next t ∧ t.err = none :=
  ⟨ready 0x006283B3#32, _, by decide, rfl, by decide⟩
theorem witness_DatapathAgreesWithRules : Supported full (.sh 6#5 5#5 8#12) = true ∧ Supported plain (.jalr 0#5 1#5 0#12) = true := by
  decide
theorem witness_RegisterFile : (31#5 : RegIdx) ≠ 0#5 ∧ (30#5 : RegIdx) ≠ 31#5 := by decide
theorem witness_WriteBackReachesItsRegister : Supported plain (.add 0#5 1#5 2#5) = true ∧
    signals (.add 0#5 1#5 2#5) = some (.r, .add) ∧ (controlSignals .r .add).wer = true ∧
    Supported plain (.sw 6#5 5#5 8#12) = true ∧ signals (.sw 6#5 5#5 8#12) = some (.store, .add) ∧
    (controlSignals .store .add).wer = false ∧
    writeBack (controlSignals .r .add) (.add 7#5 5#5 6#5) 79#32 (ready 0#32) = 79#32 := by decide
theorem witness_NothingUnspecifiedAfterReset : (ready 0x00A00293#32).cfg = (ready 0x0062A023#32).cfg ∧
    (ready 0x00A00293#32).im = ({ ready 0x00A00293#32 with pc := 1#32 } : State).im ∧ ∀ (s : State) (p : List Word),
    s.hostReset ∈ [s.hostReset, s.hostLoad p] ∧ s.hostLoad p ∈ [s.hostReset, s.hostLoad p] := ⟨by decide, by decide, by simp⟩
theorem witness_EntryIsInstructionZero : (ready 0x006283B3#32).im = [0x006283B3#32] ∧
    decode (ready 0x006283B3#32).cfg 0x006283B3#32 = .instr (.add 7#5 5#5 6#5) ∧
    decode (ready 0x00208163#32).cfg 0x00208163#32 = .reject .offsetNotWhole := by decide
theorem witness_ResetReplaysTheProgram : ∃ s t u : State, Runs 1 s t ∧ Runs 1 s.hostReset u ∧ u.readReg 5#5 = 10#32 :=
  ⟨ready 0x00A00293#32, _, _, rfl, rfl, by decide⟩
/-- The completion statements have no hypothesis on a register instruction; each shape completes here with its frame visible. -/
theorem witness_RegRule : ∃ t, exec (.add 0#5 5#5 6#5) (ready 0#32) = .next t ∧ t.regs = (ready 0#32).regs ∧ t.pc = 1#32 :=
  ⟨_, rfl, by decide, by decide⟩
theorem witness_ShiftImmediates : (0x02001013#32).extractLsb' 0 7 = 0b0010011#7 ∧
    (0x02001013#32).extractLsb' 12 3 = 0b001#3 ∧ (0x02001013#32).extractLsb' 25 7 ≠ 0b0000000#7 ∧
    (0x4242D313#32).extractLsb' 0 7 = 0b0010011#7 ∧ (0x4242D313#32).extractLsb' 12 3 = 0b101#3 ∧
    (0x4242D313#32).extractLsb' 25 7 ≠ 0b0000000#7 ∧ (0x4242D313#32).extractLsb' 25 7 ≠ 0b0100000#7 := by decide
/-- The two ends of the memory and what lies past them, for the rules of loads. -/
theorem witness_LoadWordResult : wordRead { ready 0#32 with mem := Memory.writeWord [] 255 9#32 } 255#32 = 9#32 ∧
    wordRead { ready 0#32 with mem := Memory.writeWord [] 256 9#32 } 256#32 = 0#32 := by decide
theorem witness_LoadSubwordResults : (ready 0#32).cfg.subwordLs = true := by decide
theorem witness_StoreWordResult : (ready 0#32).mem.wf = true ∧ (ready 0#32).mem ≠ [] := by decide
theorem witness_StoreSubwordResults : (ready 0#32).cfg.subwordLs = true ∧ (ready 0#32).mem.wf = true := by decide
theorem witness_LoadReturnsStoredWord : ∃ s t u : State, s.mem.wf = true ∧ s.effAddr 5#5 8#12 = u.effAddr 5#5 8#12 ∧
    (s.effAddr 5#5 8#12).toNat < s.cfg.memWords ∧ (7#5 : RegIdx) ≠ 0#5 ∧ exec (.sw 6#5 5#5 8#12) s = .next t ∧
    u.mem = t.mem ∧ u.cfg = t.cfg :=
  ⟨ready 0#32, _, (ready 0#32).memWrite4 10#32 77#32, by decide, by decide, by decide, by decide, rfl, by decide, by decide⟩
theorem witness_MixedWidthsShareTheLowEnd : ∃ s t t' : State, s.mem.wf = true ∧ s.cfg.subwordLs = true ∧
    (s.effAddr 5#5 8#12).toNat < s.cfg.memWords ∧ (7#5 : RegIdx) ≠ 0#5 ∧ exec (.sw 6#5 5#5 8#12) s = .next t ∧
    exec (.sb 6#5 5#5 8#12) s = .next t' :=
  ⟨ready 0#32, _, _, by decide, by decide, by decide, by decide, rfl, rfl⟩
theorem witness_OutOfRangeIsSilent : (ready 0#32).cfg.subwordLs = true ∧
    (ready 0#32).cfg.memWords ≤ ((ready 0#32).effAddr 5#5 254#12).toNat ∧
    (ready 0#32).cfg.memWords ≤ ((ready 0#32).effAddr 5#5 0xFFD#12).toNat := by decide
theorem witness_NegativeAddressesOutOfRange : (ready 0#32).cfg.wf ∧ ({ memWords := 2 ^ 31, subwordLs := false } : Config).wf ∧
    (ready 0#32).inRange 255#32 = true ∧ (ready 0#32).inRange 256#32 = false ∧ (ready 0#32).inRange 0xFFFFFFFF#32 = false := by
  decide
/-! A word of each branch whose byte offset has bit 1 set, for the last clause of the branch rules. -/

theorem witness_BranchOnEquality : (0x00208163#32).extractLsb' 0 7 = 0b1100011#7 ∧
    (0x00209163#32).extractLsb' 0 7 = 0b1100011#7 ∧ (0x00208163#32).extractLsb' 12 3 = 0b000#3 ∧ (0x00209163#32).extractLsb' 12 3 = 0b001#3 ∧
    (0x00208163#32)[8] = true ∧ (0x00209163#32)[8] = true ∧
    (ready 0x00208163#32).status = .ready ∧ (ready 0x00208163#32).fetchWord = 0x00208163#32 ∧
    (ready 0x00209163#32).status = .ready ∧ (ready 0x00209163#32).fetchWord = 0x00209163#32 := by decide
theorem witness_BranchOnSignedOrder : (0x0020C163#32).extractLsb' 0 7 = 0b1100011#7 ∧
    (0x0020D163#32).extractLsb' 0 7 = 0b1100011#7 ∧ (0x0020C163#32).extractLsb' 12 3 = 0b100#3 ∧
    (0x0020D163#32).extractLsb' 12 3 = 0b101#3 ∧ (0x0020C163#32)[8] = true ∧ (0x0020D163#32)[8] = true ∧
    (ready 0x0020C163#32).status = .ready ∧ (ready 0x0020C163#32).fetchWord = 0x0020C163#32 ∧
    (ready 0x0020D163#32).status = .ready ∧ (ready 0x0020D163#32).fetchWord = 0x0020D163#32 := by decide
theorem witness_BranchOnUnsignedOrder : (0x0020E163#32).extractLsb' 0 7 = 0b1100011#7 ∧
    (0x0020F163#32).extractLsb' 0 7 = 0b1100011#7 ∧ (0x0020E163#32).extractLsb' 12 3 = 0b110#3 ∧
    (0x0020F163#32).extractLsb' 12 3 = 0b111#3 ∧ (0x0020E163#32)[8] = true ∧ (0x0020F163#32)[8] = true ∧
    (ready 0x0020E163#32).status = .ready ∧ (ready 0x0020E163#32).fetchWord = 0x0020E163#32 ∧
    (ready 0x0020F163#32).status = .ready ∧ (ready 0x0020F163#32).fetchWord = 0x0020F163#32 := by decide
theorem witness_JumpsLinkAndGo : byteOffJ (BitVec.ofInt 19 (-2)) = BitVec.ofInt 19 (-2) ++ 0#2 ∧
    byteOffJ (BitVec.ofInt 19 (-2)) = BitVec.ofInt 21 (-8) := by decide
theorem witness_CallsReturnAndLongJumpsReach : ∃ s t t' : State, (1#5 : RegIdx) ≠ 0#5 ∧
    exec (.jal 1#5 (BitVec.ofInt 19 (-2))) s = .next t ∧ t.readReg 1#5 = 1#32 ∧
    exec (.auipc 1#5 0xFFFFF#20) s = .next t' ∧ t'.readReg 1#5 = 0xFFFFF000#32 :=
  ⟨ready 0#32, _, _, by decide, rfl, by decide, rfl, by decide⟩
theorem witness_LoadUpperImmediate : (0xFFFFF2B7#32).extractLsb' 0 7 = 0b0110111#7 ∧ ∃ s t : State, (6#5 : RegIdx) ≠ 0#5 ∧
    exec (.lui 6#5 ((0xABCDEEEF#32 - ((0xABCDEEEF#32).extractLsb' 0 12).signExtend 32).extractLsb' 12 20)) s = .next t ∧
    t.readReg 6#5 = 0xABCDF000#32 :=
  ⟨by decide, ready 0#32, _, by decide, rfl, by decide⟩

end Sys2Proof.Tests
end

section
/-! Proofs about the architectural state (spec 10): the register file. -/

namespace Sys2Proof.Proofs.RegisterFile

/-- Settles O27: each clause is one law of `readReg` and `writeReg` (spec 10 R11, R12). -/
theorem registerFile : Obligations.RegisterFile := by
  intro s i v
  exact ⟨s.readReg_zero, s.writeReg_zero v, s.readReg_writeReg_self i v, s.readReg_writeReg_ne i v⟩

end Sys2Proof.Proofs.RegisterFile
end

section
/-! Proofs about the program store (spec 20 R44): no step reaches it, and what the host's `reset` and `load` leave of it. -/

open Sys2Proof.Machine

namespace Sys2Proof.Proofs.ProgramStore

/-- No effect of an instruction reaches the program store or the build (spec 20 R44; 10 R29). -/
theorem effect_keeps_program_and_build {s t : State} {i : Instr} (h : Effect s i t) : t.im = s.im ∧ t.cfg = s.cfg := by
  cases h with
  | writes => simp
  | stores => simp
  | branches => simp
  | fails => simp

/-- A step keeps the program and the build whatever it does: nothing, fail on a refused word, or run an instruction. -/
theorem step_keeps_program_and_build {s t : State} (h : step s = .next t) : t.im = s.im ∧ t.cfg = s.cfg := by
  obtain ⟨-, hs⟩ | ⟨-, r, -, hs⟩ | ⟨-, i, -, u, hs, he⟩ := step_cases s <;> rw [hs] at h <;> cases h
  · exact ⟨rfl, rfl⟩
  · exact ⟨s.raise_im .., s.raise_cfg ..⟩
  · exact effect_keeps_program_and_build he

/-- `load` leaves every register as `reset` leaves it (spec 70 R172): both zero-fill the file. -/
theorem sameRegs_hostReset_hostLoad (s : State) (p : List Word) : SameRegs s.hostReset (s.hostLoad p) := by
  intro r
  rw [State.hostReset, State.hostLoad, State.readReg_initial, State.readReg_initial]

/-- `load` leaves every byte of memory as `reset` leaves it (spec 70 R172): both leave the zero-filled memory. -/
theorem sameMemory_hostReset_hostLoad (s : State) (p : List Word) : SameMemory s.hostReset (s.hostLoad p) := by
  intro a
  rw [State.hostLoad_mem, State.hostReset_mem]

/-- Settles O22: the step by its inversion, the host operations by what each leaves in every field (spec 20 R44). -/
theorem programNeverWritten : Obligations.ProgramNeverWritten := by
  intro s
  refine ⟨fun t => step_keeps_program_and_build, s.hostReset_im, s.hostReset_cfg, fun p => ?_⟩
  refine ⟨s.hostLoad_im p, s.hostLoad_cfg p, sameRegs_hostReset_hostLoad s p, sameMemory_hostReset_hostLoad s p, ?_, ?_, ?_⟩
  · rw [State.hostLoad_pc, State.hostReset_pc]
  · rw [State.hostLoad_snap, State.hostReset_snap]
  · rw [State.hostLoad_err, State.hostReset_err]

end Sys2Proof.Proofs.ProgramStore
end

section
/-! Proofs about the step (spec 40 R70 to R73, R91): it is total, and a Ready step runs what its word decodes to. -/

open Sys2Proof.Machine

namespace Sys2Proof.Proofs.Step

/-- Settles O13: each of the three things a step can do (no-op, refused word, instruction) gives a next state (spec 40 R70). -/
theorem stepIsTotal : Obligations.StepIsTotal := by
  intro s
  obtain ⟨-, noOp⟩ | ⟨-, r, -, refused⟩ | ⟨-, i, -, t, runs, -⟩ := step_cases s
  · exact ⟨s, noOp⟩
  · exact ⟨s.raise (rejectCode r) s.fetchWord, refused⟩
  · exact ⟨t, runs⟩

/-- Settles O14: Ready puts the PC inside the program (spec 40 R72), and each answer of the decoder has its own equation of
the step (R73, R91). -/
theorem stepRunsDecoded : Obligations.StepRunsDecoded := by
  intro s ready
  exact ⟨fetch_ready ready, fun _ => step_instr ready, fun _ => step_reject ready⟩

end Sys2Proof.Proofs.Step
end

section
/-! Proofs about the ALU (spec 40 R79): its operations as arithmetic on the numbers a word stands for. -/

open Sys2Proof.Machine

namespace Sys2Proof.Proofs.Alu

/-- `b & 0x1F` is `b` modulo 32 (spec 40 R79). -/
theorem shiftCount_eq_mod (b : Word) : shiftCount b = b.toNat % 32 := by
  rw [shiftCount, BitVec.toNat_and]
  exact Nat.and_two_pow_sub_one_eq_mod b.toNat 5

theorem alu_add (a b : Word) : alu .add a b = BitVec.ofNat 32 (a.toNat + b.toNat) := by
  rw [BitVec.ofNat_add, BitVec.ofNat_toNat, BitVec.ofNat_toNat, BitVec.setWidth_eq, BitVec.setWidth_eq, alu]

/-- The signed readings differ from the words by multiples of 2^32, so subtracting them gives the word difference. -/
theorem alu_sub (a b : Word) : alu .sub a b = BitVec.ofInt 32 (a.toInt - b.toInt) := by
  rw [Int.sub_eq_add_neg, BitVec.ofInt_add, BitVec.ofInt_neg, BitVec.ofInt_toInt, BitVec.ofInt_toInt,
    ← BitVec.sub_eq_add_neg, alu]

theorem alu_and (a b : Word) : alu .and a b = BitVec.ofFnLE fun i : Fin 32 => a[i] && b[i] := by
  ext i hi
  rw [alu, BitVec.getElem_and, BitVec.getElem_ofFnLE]; rfl

theorem alu_or (a b : Word) : alu .or a b = BitVec.ofFnLE fun i : Fin 32 => a[i] || b[i] := by
  ext i hi
  rw [alu, BitVec.getElem_or, BitVec.getElem_ofFnLE]; rfl

theorem alu_xor (a b : Word) : alu .xor a b = BitVec.ofFnLE fun i : Fin 32 => a[i] ^^ b[i] := by
  ext i hi
  rw [alu, BitVec.getElem_xor, BitVec.getElem_ofFnLE]; rfl

theorem alu_sll (a b : Word) : alu .sll a b = BitVec.ofNat 32 (a.toNat * 2 ^ (b.toNat % 32)) := by
  apply BitVec.eq_of_toNat_eq
  rw [alu, shiftCount_eq_mod, BitVec.toNat_shiftLeft, Nat.shiftLeft_eq, BitVec.toNat_ofNat]

theorem alu_srl (a b : Word) : alu .srl a b = BitVec.ofNat 32 (a.toNat / 2 ^ (b.toNat % 32)) := by
  rw [alu, shiftCount_eq_mod, ← Nat.shiftRight_eq_div_pow, ← BitVec.toNat_ushiftRight, BitVec.ofNat_toNat,
    BitVec.setWidth_eq]

/-- `/` on integers rounds down for a positive divisor, which is what the arithmetic shift does. -/
theorem alu_sra (a b : Word) : alu .sra a b = BitVec.ofInt 32 (a.toInt / 2 ^ (b.toNat % 32)) := by
  rw [alu, shiftCount_eq_mod, BitVec.sshiftRight, Int.shiftRight_eq_div_pow, Nat.cast_pow, Nat.cast_ofNat]

theorem alu_slt (a b : Word) : alu .slt a b = if a.toInt < b.toInt then 1#32 else 0#32 := by
  simp only [alu, boolWord, decide_eq_true_eq]

theorem alu_sltu (a b : Word) : alu .sltu a b = if a.toNat < b.toNat then 1#32 else 0#32 := by
  simp only [alu, boolWord, decide_eq_true_eq]

end Sys2Proof.Proofs.Alu
end

section
/-! Proofs about class R (spec 41): each instruction is one row of the encoder, one ALU operation and the effect common to the
class (R100). -/

open Sys2Proof.Machine Sys2Proof.Claims Sys2Proof.Proofs.Alu

namespace Sys2Proof.Proofs.ClassR

/-- The rule of a class R instruction, from its row of the encoder, its meaning as `regOp` and the value of its ALU operation:
the write, the snapshot and the frame are those common to the class (spec 41 R100). -/
theorem regRule_of_regOp {mk : RegIdx → RegIdx → RegIdx → Instr} {f7 : BitVec 7} {f3 : BitVec 3} {op : AluOp}
    {f : Word → Word → Word} (word : ∀ rd rs1 rs2, encode (mk rd rs1 rs2) = wordR f7 rs2 rs1 f3 rd opReg)
    (meaning : ∀ rd rs1 rs2 s, exec (mk rd rs1 rs2) s = .next (regOp op rd rs1 rs2 s))
    (value : ∀ a b, alu op a b = f a b) : RegRule mk f7 f3 op f := by
  intro rd rs1 rs2 s
  refine ⟨word rd rs1 rs2, ?_⟩
  rw [meaning, ← value]
  exact regOp_writes s op rd rs1 rs2

/-- Settles O33: the two rows with `funct3` 000, by the values of ADD and SUB (spec 41 R101, R102). -/
theorem addSubRegisters : Obligations.AddSubRegisters :=
  ⟨regRule_of_regOp (fun _ _ _ => rfl) (fun _ _ _ _ => rfl) alu_add,
    regRule_of_regOp (fun _ _ _ => rfl) (fun _ _ _ _ => rfl) alu_sub⟩

/-- Settles O34: AND, OR and XOR read bit by bit (spec 41 R103 to R105). -/
theorem logicRegisters : Obligations.LogicRegisters :=
  ⟨regRule_of_regOp (fun _ _ _ => rfl) (fun _ _ _ _ => rfl) alu_and,
    regRule_of_regOp (fun _ _ _ => rfl) (fun _ _ _ _ => rfl) alu_or,
    regRule_of_regOp (fun _ _ _ => rfl) (fun _ _ _ _ => rfl) alu_xor⟩

/-- Settles O35: the three shifts by `x[rs2]` modulo 32, as multiplication and division by a power of two
(spec 41 R106 to R108). -/
theorem shiftRegisters : Obligations.ShiftRegisters :=
  ⟨regRule_of_regOp (fun _ _ _ => rfl) (fun _ _ _ _ => rfl) alu_sll,
    regRule_of_regOp (fun _ _ _ => rfl) (fun _ _ _ _ => rfl) alu_srl,
    regRule_of_regOp (fun _ _ _ => rfl) (fun _ _ _ _ => rfl) alu_sra⟩

/-- Settles O36: the signed and the unsigned comparison, each as the number 1 or 0 (spec 41 R109, R110). -/
theorem compareRegisters : Obligations.CompareRegisters :=
  ⟨regRule_of_regOp (fun _ _ _ => rfl) (fun _ _ _ _ => rfl) alu_slt,
    regRule_of_regOp (fun _ _ _ => rfl) (fun _ _ _ _ => rfl) alu_sltu⟩

end Sys2Proof.Proofs.ClassR
end

section
/-! Proofs about the operand forms (spec 30 R54, R59): extended immediates as the numbers their fields stand for. -/

open Sys2Proof.Machine

namespace Sys2Proof.Proofs.Operands

/-- `sext_12` is the 32-bit word of the field's signed number (spec 30 R54). -/
theorem sext12_eq_ofInt (imm : BitVec 12) : sext12 imm = BitVec.ofInt 32 imm.toInt := rfl

/-- `sext_12` keeps the field's signed number (spec 30 R54). -/
@[simp] theorem toInt_sext12 (imm : BitVec 12) : (sext12 imm).toInt = imm.toInt :=
  BitVec.toInt_signExtend_of_le (by decide)

/-- A shift by `zext_5(shamt)` counts `shamt` places: the five bits are below 32 (spec 30 R59; 40 R79). -/
@[simp] theorem shamtValue_toNat_mod (shamt : BitVec 5) : (shamtValue shamt).toNat % 32 = shamt.toNat := by
  have hlt : shamt.toNat < 32 := shamt.isLt
  rw [shamtValue, BitVec.toNat_setWidth]
  omega

end Sys2Proof.Proofs.Operands
end

section
/-! Proofs about the opcode map (spec 30 R60): the rows that a word of the class I major opcode can fit. -/

namespace Sys2Proof.Proofs.OpcodeMap

/-- The column `opcode` of a row's fixed bits (spec 30 R60). -/
def opcodeColumn : Pattern → BitVec 7
  | .op o | .op3 o _ | .op37 o _ _ => o
  | .whole v => opcodeOf v

/-- A word fits only rows of its own major opcode. -/
theorem opcodeColumn_of_fits {p : Pattern} {w : Word} (hfit : p.fits w = true) : opcodeColumn p = opcodeOf w := by
  cases p with
  | op o => exact (eq_of_beq hfit).symm
  | op3 o f3 =>
    obtain ⟨hop, -⟩ := Bool.and_eq_true_iff.mp hfit
    exact (eq_of_beq hop).symm
  | op37 o f3 f7 =>
    obtain ⟨hop3, -⟩ := Bool.and_eq_true_iff.mp hfit
    obtain ⟨hop, -⟩ := Bool.and_eq_true_iff.mp hop3
    exact (eq_of_beq hop).symm
  | whole v => rw [opcodeColumn, eq_of_beq hfit]

/-- The class I major opcode belongs to the class I rows alone. -/
theorem mem_rowsImm {r : Row} (hr : r ∈ rows) (hop : opcodeColumn r.pattern = opImm) : r ∈ rowsImm := by
  have control : ∀ r ∈ rowsControl, opcodeColumn r.pattern ≠ opImm := by decide
  have memory : ∀ r ∈ rowsMemory, opcodeColumn r.pattern ≠ opImm := by decide
  have reg : ∀ r ∈ rowsReg, opcodeColumn r.pattern ≠ opImm := by decide
  have unsupported : ∀ r ∈ rowsUnsupported, opcodeColumn r.pattern ≠ opImm := by decide
  simp only [rows, List.mem_append] at hr
  obtain h | h | h | h | h := hr
  · exact absurd hop (control r h)
  · exact absurd hop (memory r h)
  · exact h
  · exact absurd hop (reg r h)
  · exact absurd hop (unsupported r h)

/-- A word of the class I major opcode is refused by step 2 of the decoder if none of the nine class I rows fits. -/
theorem decode_opImm_noRow {c : Config} {w : Word} (hop : opcodeOf w = opImm)
    (hno : ∀ r ∈ rowsImm, r.pattern.fits w = false) : decode c w = .reject .noRow := by
  rw [decode_noRow]
  intro r hr
  rw [Bool.eq_false_iff]
  intro hfit
  have hmem : r ∈ rowsImm := mem_rowsImm hr ((opcodeColumn_of_fits hfit).trans hop)
  rw [hno r hmem] at hfit
  cases hfit

/-- `funct3` 001 has one class I row, and that fixes the upper field to 0 (spec 42 R118). -/
theorem decode_leftShift_noRow {c : Config} {w : Word} (hop : opcodeOf w = opImm) (hf3 : funct3Of w = 0b001#3)
    (hf7 : funct7Of w ≠ 0b0000000#7) : decode c w = .reject .noRow :=
  decode_opImm_noRow hop (by simp [rowsImm, Pattern.fits, hf3, hf7])

/-- `funct3` 101 has two class I rows, told apart by the upper field (spec 42 R119, R120). -/
theorem decode_rightShift_noRow {c : Config} {w : Word} (hop : opcodeOf w = opImm) (hf3 : funct3Of w = 0b101#3)
    (hlogical : funct7Of w ≠ 0b0000000#7) (harith : funct7Of w ≠ 0b0100000#7) : decode c w = .reject .noRow :=
  decode_opImm_noRow hop (by simp [rowsImm, Pattern.fits, hf3, hlogical, harith])

end Sys2Proof.Proofs.OpcodeMap
end

section
/-! Proofs about class I (spec 42): each instruction is one row of the encoder, one ALU operation on an extended immediate and
the effect common to the class (R111). -/

open Sys2Proof.Machine Sys2Proof.Claims Sys2Proof.Proofs.Alu Sys2Proof.Proofs.Operands Sys2Proof.Proofs.OpcodeMap

namespace Sys2Proof.Proofs.ClassI

/-- The rule of a class I instruction with a 12-bit immediate, from its row of the encoder, its meaning as `immOp` and the
value of its ALU operation on the sign-extended field (spec 42 R111). -/
theorem immRule_of_immOp {mk : RegIdx → RegIdx → BitVec 12 → Instr} {f3 : BitVec 3} {op : AluOp}
    {f : Word → BitVec 12 → Word} (word : ∀ rd rs1 imm, encode (mk rd rs1 imm) = wordI imm rs1 f3 rd opImm)
    (meaning : ∀ rd rs1 imm s, exec (mk rd rs1 imm) s = .next (immOp op rd rs1 (sext12 imm) s))
    (value : ∀ a imm, alu op a (sext12 imm) = f a imm) : ImmRule mk f3 op f := by
  intro rd rs1 imm s
  refine ⟨word rd rs1 imm, ?_⟩
  rw [meaning, ← value]
  exact immOp_writes s op rd rs1 (sext12 imm)

/-- The rule of a class I shift: it shifts as the class R instruction of the same ALU operation does by a register
(spec 42 R118 to R120), and the shift amount is its own count. -/
theorem shiftRule_of_immOp {mk : RegIdx → RegIdx → BitVec 5 → Instr} {f7 : BitVec 7} {f3 : BitVec 3} {op : AluOp}
    {f : Word → Nat → Word} (word : ∀ rd rs1 shamt, encode (mk rd rs1 shamt) = wordR f7 shamt rs1 f3 rd opImm)
    (meaning : ∀ rd rs1 shamt s, exec (mk rd rs1 shamt) s = .next (immOp op rd rs1 (shamtValue shamt) s))
    (value : ∀ a b, alu op a b = f a (b.toNat % 32)) : ShiftRule mk f7 f3 op f := by
  intro rd rs1 shamt s
  refine ⟨word rd rs1 shamt, ?_⟩
  rw [meaning, ← shamtValue_toNat_mod shamt, ← value]
  exact immOp_writes s op rd rs1 (shamtValue shamt)

/-- Adding the extended field adds the signed numbers, modulo 2^32 (spec 42 R112). -/
theorem alu_add_sext12 (a : Word) (imm : BitVec 12) :
    alu .add a (sext12 imm) = BitVec.ofInt 32 (a.toInt + imm.toInt) := by
  rw [BitVec.ofInt_add, BitVec.ofInt_toInt, ← sext12_eq_ofInt, alu]

theorem alu_slt_sext12 (a : Word) (imm : BitVec 12) :
    alu .slt a (sext12 imm) = if a.toInt < imm.toInt then 1#32 else 0#32 := by
  rw [alu_slt, toInt_sext12]

/-- Settles O37: ADD by the signed numbers; the three bitwise operations take the extended field as the word it is
(spec 42 R112 to R115). -/
theorem arithmeticImmediates : Obligations.ArithmeticImmediates :=
  ⟨immRule_of_immOp (fun _ _ _ => rfl) (fun _ _ _ _ => rfl) alu_add_sext12,
    immRule_of_immOp (fun _ _ _ => rfl) (fun _ _ _ _ => rfl) fun _ _ => rfl,
    immRule_of_immOp (fun _ _ _ => rfl) (fun _ _ _ _ => rfl) fun _ _ => rfl,
    immRule_of_immOp (fun _ _ _ => rfl) (fun _ _ _ _ => rfl) fun _ _ => rfl⟩

/-- Settles O38: SLT compares signed numbers, and sign extension keeps the field's (spec 42 R116). -/
theorem compareSignedImmediate : Obligations.CompareSignedImmediate :=
  immRule_of_immOp (fun _ _ _ => rfl) (fun _ _ _ _ => rfl) alu_slt_sext12

/-- Settles O40: the three shifts by the ALU's values for a count below 32, and the refusal of the other upper fields by the
rows of `funct3` 001 and 101 (spec 42 R118 to R120). -/
theorem shiftImmediates : Obligations.ShiftImmediates := by
  refine ⟨shiftRule_of_immOp (fun _ _ _ => rfl) (fun _ _ _ _ => rfl) alu_sll,
    shiftRule_of_immOp (fun _ _ _ => rfl) (fun _ _ _ _ => rfl) alu_srl,
    shiftRule_of_immOp (fun _ _ _ => rfl) (fun _ _ _ _ => rfl) alu_sra, ?_⟩
  intro c w hop
  exact ⟨decode_leftShift_noRow hop, decode_rightShift_noRow hop⟩

end Sys2Proof.Proofs.ClassI
end

section
/-! Proofs about reads of the data memory (spec 20 R33, R34): the word a load looks at. -/

open Sys2Proof.Machine Sys2Proof.Claims

namespace Sys2Proof.Proofs.MemoryRead

/-- The word `MemRead` takes its bits from, with the range test of R33 as the comparison R32 makes (spec 20 R32 to R34). -/
theorem wordAt_eq_wordRead (s : State) (a : Word) : s.wordAt a = wordRead s a := by
  simp only [State.wordAt, State.inRange, wordRead, decide_eq_true_eq]

end Sys2Proof.Proofs.MemoryRead
end

section
/-! Proofs about class Load (spec 43): each instruction is one row of the encoder, one extension of the addressed word and the
effect common to the class (R121). -/

open Sys2Proof.Machine Sys2Proof.Claims Sys2Proof.Proofs.MemoryRead

namespace Sys2Proof.Proofs.ClassLoad

/-- The rule of a load, from its row of the encoder and its meaning as `loadOp` of `f` of the addressed word in the builds that
have it: the write, the snapshot and the frame are those common to the class (spec 43 R121). -/
theorem loadRule_of_loadOp {mk : RegIdx → RegIdx → BitVec 12 → Instr} {f3 : BitVec 3} {f : Word → Word}
    {present : Config → Prop} (word : ∀ rd rs1 imm, encode (mk rd rs1 imm) = wordI imm rs1 f3 rd opLoad)
    (meaning : ∀ rd rs1 imm s, present s.cfg →
      exec (mk rd rs1 imm) s = .next (loadOp rd (f (s.wordAt (s.effAddr rs1 imm))) s)) : LoadRule mk f3 f present := by
  intro rd rs1 imm s hpresent
  refine ⟨word rd rs1 imm, ?_⟩
  rw [meaning rd rs1 imm s hpresent, wordAt_eq_wordRead]
  exact loadOp_writes s rd (f (wordRead s (s.effAddr rs1 imm)))

/-- Settles O41: `lw` is in every build and takes the addressed word as it is, with no extension (spec 43 R122). -/
theorem loadWordResult : Obligations.LoadWordResult :=
  loadRule_of_loadOp (fun _ _ _ => rfl) fun _ _ _ _ _ => rfl

end Sys2Proof.Proofs.ClassLoad
end

section
/-! Proofs about writes of the data memory (spec 20 R33, R35): the word a store changes and the bytes it leaves alone. -/

open Sys2Proof.Machine

namespace Sys2Proof.Proofs.MemoryWrite

/-- A whole-word write reaches only the four lanes of its word (spec 20 R35, n = 4). -/
theorem readByte_writeWord_outside {m : Memory} (hm : m.wf = true) {k b : Nat} (v : Word)
    (outside : ¬(4 * k ≤ b ∧ b < 4 * k + 4)) : (m.writeWord k v).readByte b = m.readByte b := by
  rw [Memory.readByte_writeWord hm, if_neg (by omega), if_neg (by omega), if_neg (by omega), if_neg (by omega)]

/-- In range, `MemWrite(a, 4, v)` writes the word (spec 20 R35). -/
theorem memWrite4_mem_inRange {s : State} {a : Word} (v : Word) (inside : a.toNat < s.cfg.memWords) :
    (s.memWrite4 a v).mem = s.mem.writeWord a.toNat v := if_pos (decide_eq_true inside)

/-- Out of range, `MemWrite(a, 4, v)` leaves memory as it is (spec 20 R33). -/
theorem memWrite4_mem_outOfRange {s : State} {a : Word} (v : Word) (outside : ¬a.toNat < s.cfg.memWords) :
    (s.memWrite4 a v).mem = s.mem := if_neg (by rw [State.inRange, decide_eq_true_eq]; exact outside)

/-- The addressed word after `MemWrite(a, 4, v)` (spec 20 R33, R35). -/
theorem readWord_memWrite4 {s : State} (hm : s.mem.wf = true) (a v : Word) :
    (s.memWrite4 a v).mem.readWord a.toNat = if a.toNat < s.cfg.memWords then v else s.mem.readWord a.toNat := by
  by_cases h : a.toNat < s.cfg.memWords
  · rw [memWrite4_mem_inRange v h, Memory.readWord_writeWord hm, if_pos rfl, if_pos h]
  · rw [memWrite4_mem_outOfRange v h, if_neg h]

/-- `MemWrite(a, 4, v)` leaves every byte but the addressed word's four, and out of range every byte (spec 20 R33, R35). -/
theorem readByte_memWrite4_frame {s : State} (hm : s.mem.wf = true) {a : Word} (v : Word) {b : Nat}
    (outside : ¬(a.toNat < s.cfg.memWords ∧ 4 * a.toNat ≤ b ∧ b < 4 * a.toNat + 4)) :
    (s.memWrite4 a v).mem.readByte b = s.mem.readByte b := by
  by_cases h : a.toNat < s.cfg.memWords
  · rw [memWrite4_mem_inRange v h]
    exact readByte_writeWord_outside hm v fun lanes => outside ⟨h, lanes⟩
  · rw [memWrite4_mem_outOfRange v h]

end Sys2Proof.Proofs.MemoryWrite
end

section
/-! Proofs about class Store (spec 44): each instruction is one row of the encoder, one write of the data memory and the effect
common to the class (R128). -/

open Sys2Proof.Machine Sys2Proof.Claims Sys2Proof.Proofs.MemoryWrite

namespace Sys2Proof.Proofs.ClassStore

/-- The effect common to the class: after any change of memory alone, the end of a store has a store's outcome if the addressed
word and the bytes outside its written lanes are what they should be (spec 44 R128). -/
theorem storeOp_stores {s : State} {m : Memory} {ea v : Word} {bytes : Nat}
    (stored : m.readWord ea.toNat = if ea.toNat < s.cfg.memWords then v else s.mem.readWord ea.toNat)
    (frame : ∀ b, ¬(ea.toNat < s.cfg.memWords ∧ 4 * ea.toNat ≤ b ∧ b < 4 * ea.toNat + bytes) →
      m.readByte b = s.mem.readByte b) : Stores (.next (storeOp { s with mem := m })) s ea bytes v :=
  ⟨_, rfl, stored, frame, fun _ => rfl, rfl, rfl, rfl, rfl, rfl, rfl⟩

/-- The rule of a store, from its row of the encoder, its meaning as `storeOp` after `write` in the builds that have it, and what
`write` stores (spec 44 R128). -/
theorem storeRule_of_storeOp {mk : RegIdx → RegIdx → BitVec 12 → Instr} {f3 : BitVec 3} {bytes : Nat}
    {f : Word → Word → Word} {present : Config → Prop} {write : State → Word → Word → State}
    (word : ∀ rs2 rs1 imm, encode (mk rs2 rs1 imm) = wordS imm rs2 rs1 f3 opStore)
    (meaning : ∀ rs2 rs1 imm s, present s.cfg →
      exec (mk rs2 rs1 imm) s = .next (storeOp (write s (s.effAddr rs1 imm) (s.readReg rs2))))
    (stores : ∀ (s : State) (ea v : Word), s.mem.wf = true →
      Stores (.next (storeOp (write s ea v))) s ea bytes (f (s.mem.readWord ea.toNat) v)) :
    StoreRule mk f3 bytes f present := by
  intro rs2 rs1 imm s hpresent hm
  refine ⟨word rs2 rs1 imm, ?_⟩
  rw [meaning rs2 rs1 imm s hpresent]
  exact stores s (s.effAddr rs1 imm) (s.readReg rs2) hm

/-- The end of a store after `MemWrite(ea, 4, v)` (spec 44 R129). -/
theorem storeOp_memWrite4_stores {s : State} (hm : s.mem.wf = true) (ea v : Word) :
    Stores (.next (storeOp (s.memWrite4 ea v))) s ea 4 v :=
  storeOp_stores (readWord_memWrite4 hm ea v) fun _ => readByte_memWrite4_frame hm v

/-- Settles O43: `sw` is in every build and replaces the whole addressed word, or nothing out of range (spec 44 R129). -/
theorem storeWordResult : Obligations.StoreWordResult :=
  storeRule_of_storeOp (fun _ _ _ => rfl) (fun _ _ _ _ _ => rfl) fun _ ea v hm => storeOp_memWrite4_stores hm ea v

end Sys2Proof.Proofs.ClassStore
end

section
/-! Proofs about the row of `lui` in the opcode map (spec 30 R60): it is the first and has no column but the opcode. -/

namespace Sys2Proof.Proofs.UpperRow

/-- The major opcode of `lui` alone decides the row (spec 30 R60, step 1). -/
theorem rowOf_opLui {w : Word} (hop : opcodeOf w = opLui) : rowOf w = some ⟨.op opLui, fieldsU .lui⟩ :=
  List.find?_cons_of_pos (beq_of_eq hop)

/-- No step of the decoder refuses a word of the major opcode of `lui`, in any build (spec 47 R142). -/
theorem decode_opLui (c : Config) {w : Word} (hop : opcodeOf w = opLui) :
    decode c w = .instr (.lui (rdOf w) (imm20Of w)) := by
  rw [decode, rowOf_opLui hop]
  rfl

end Sys2Proof.Proofs.UpperRow
end

section
/-! Proofs about the upper immediate (spec 30 R57): the number it stands for, and the split of a constant into an upper field and
a sign-extended lower one (spec 47 R142). -/

open Sys2Proof.Machine

namespace Sys2Proof.Proofs.UpperImmediate

/-- Twelve zeros below the field multiply it by 4096 (spec 30 R57). -/
theorem upperValue_eq_ofNat (imm20 : BitVec 20) : upperValue imm20 = BitVec.ofNat 32 (imm20.toNat * 4096) := by
  apply BitVec.eq_of_toNat_eq
  have hlt : imm20.toNat < 2 ^ 20 := imm20.isLt
  rw [upperValue, BitVec.toNat_append, BitVec.toNat_ofNat, BitVec.toNat_ofNat, Nat.zero_mod, Nat.or_zero, Nat.shiftLeft_eq]
  omega

/-- A word whose low twelve bits are zero is its upper field above twelve zeros. -/
theorem upperValue_extractLsb' {w : Word} (low : w.setWidth 12 = 0#12) : upperValue (w.extractLsb' 12 20) = w := by
  rw [upperValue, ← low, BitVec.setWidth_eq_extractLsb' (by decide)]
  exact BitVec.extractLsb'_append_extractLsb' (w := 20)

/-- Sign extension keeps the twelve bits it extends. -/
theorem setWidth_sext12 (imm : BitVec 12) : (sext12 imm).setWidth 12 = imm := by
  ext i hi
  have hi32 : i < 32 := by omega
  simp [sext12, BitVec.getElem_signExtend, hi, hi32]

/-- Subtracting its sign-extended low twelve bits clears the low twelve bits of a word. -/
theorem setWidth_sub_sext12 (c : Word) : (c - sext12 (c.extractLsb' 0 12)).setWidth 12 = 0#12 := by
  have hsum := calc (c - sext12 (c.extractLsb' 0 12)).setWidth 12 + c.extractLsb' 0 12
    _ = (c - sext12 (c.extractLsb' 0 12)).setWidth 12 + (sext12 (c.extractLsb' 0 12)).setWidth 12 := by
        rw [setWidth_sext12]
    _ = c.setWidth 12 := by rw [← BitVec.setWidth_add _ _ (by decide), BitVec.sub_add_cancel]
    _ = c.extractLsb' 0 12 := BitVec.setWidth_eq_extractLsb' (by decide)
  exact add_eq_right.mp hsum

/-- The upper part and the sign-extended lower part of a constant add up to it (spec 47 R142). -/
theorem upperValue_add_sext12 (c : Word) :
    upperValue ((c - sext12 (c.extractLsb' 0 12)).extractLsb' 12 20) + sext12 (c.extractLsb' 0 12) = c := by
  rw [upperValue_extractLsb' (setWidth_sub_sext12 c), BitVec.sub_add_cancel]

end Sys2Proof.Proofs.UpperImmediate
end

section
/-! Proofs about class Upper-immediate (spec 47): each instruction is one row of the encoder and the effect common to the class. -/

open Sys2Proof.Machine Sys2Proof.Proofs.UpperRow Sys2Proof.Proofs.UpperImmediate

namespace Sys2Proof.Proofs.ClassUpper

/-- The word `lui` writes is in its register afterwards, unless that is `x0` (spec 47 R142). -/
theorem readReg_lui {s t : State} {rd : RegIdx} {imm20 : BitVec 20} (hrd : rd ≠ 0#5)
    (hlui : exec (.lui rd imm20) s = .next t) : t.readReg rd = upperValue imm20 := by
  cases hlui
  exact s.readReg_writeReg_self rd (upperValue imm20) hrd

/-- `addi` of a register to itself adds the extended field to it (spec 42 R112). -/
theorem exec_addi_self (s : State) {rd : RegIdx} (hrd : rd ≠ 0#5) (imm : BitVec 12) :
    ∃ t, exec (.addi rd rd imm) s = .next t ∧ t.readReg rd = s.readReg rd + sext12 imm :=
  ⟨_, rfl, s.readReg_writeReg_self rd (s.readReg rd + sext12 imm) hrd⟩

/-- `lui` of the upper part of a constant, then `addi` of its lower part, leaves the constant in the register
(spec 47 R142). -/
theorem lui_addi_builds_constant {s t : State} {rd : RegIdx} {c : Word} (hrd : rd ≠ 0#5)
    (hlui : exec (.lui rd ((c - sext12 (c.extractLsb' 0 12)).extractLsb' 12 20)) s = .next t) :
    ∃ u, exec (.addi rd rd (c.extractLsb' 0 12)) t = .next u ∧ u.readReg rd = c := by
  obtain ⟨u, haddi, hread⟩ := exec_addi_self t hrd (c.extractLsb' 0 12)
  rw [readReg_lui hrd hlui, upperValue_add_sext12] at hread
  exact ⟨u, haddi, hread⟩

/-- Settles O54: the effect common to the class with the field times 4096, the row of the opcode, and the two parts of a
constant (spec 47 R142). -/
theorem loadUpperImmediate : Obligations.LoadUpperImmediate := by
  refine ⟨fun rd imm20 s => ⟨rfl, ?_⟩, fun c w => decode_opLui c, fun rd c s t => lui_addi_builds_constant⟩
  rw [← upperValue_eq_ofNat]
  exact upperOp_writes s rd (upperValue imm20)

end Sys2Proof.Proofs.ClassUpper
end

section
/-! Proofs about the opcode map (spec 30 R60) as one list of rows per major opcode: a word fits rows of its own opcode alone. -/

open Sys2Proof.Proofs.OpcodeMap

namespace Sys2Proof.Proofs.OpcodeRows

/-- The rows of a major opcode, in the order of the map (spec 30 R60). -/
def rowsOfOpcode (o : BitVec 7) : List Row := rows.filter fun r => opcodeColumn r.pattern == o

/-- A row that a word fits is one of the word's own major opcode. -/
theorem mem_rowsOfOpcode_of_fits {r : Row} {w : Word} (hr : r ∈ rows) (hfit : r.pattern.fits w = true) :
    r ∈ rowsOfOpcode (opcodeOf w) :=
  List.mem_filter.mpr ⟨hr, beq_iff_eq.mpr (opcodeColumn_of_fits hfit)⟩

/-- A word is refused by step 2 of the decoder if it fits no row of its own major opcode. -/
theorem decode_noRow_of_opcode {c : Config} {w : Word} {o : BitVec 7} (hop : opcodeOf w = o)
    (hno : ∀ r ∈ rowsOfOpcode o, r.pattern.fits w = false) : decode c w = .reject .noRow := by
  rw [decode_noRow]
  intro r hr
  rw [Bool.eq_false_iff]
  intro hfit
  have hmem : r ∈ rowsOfOpcode o := hop ▸ mem_rowsOfOpcode_of_fits hr hfit
  rw [hno r hmem] at hfit
  cases hfit

/-- A word is refused if its major opcode is told apart by `funct3` alone and none of the rows has the word's. -/
theorem decode_noRow_of_funct3 {c : Config} {w : Word} {o : BitVec 7} {f3s : List (BitVec 3)}
    (hrows : (rowsOfOpcode o).map Row.pattern = f3s.map (.op3 o)) (hop : opcodeOf w = o) (hf3 : funct3Of w ∉ f3s) :
    decode c w = .reject .noRow := by
  refine decode_noRow_of_opcode hop fun r hr => ?_
  have hmem : r.pattern ∈ f3s.map (.op3 o) := hrows ▸ List.mem_map_of_mem hr
  obtain ⟨f3, hf3s, hpattern⟩ := List.mem_map.mp hmem
  have hne : funct3Of w ≠ f3 := fun heq => hf3 (heq ▸ hf3s)
  simp [← hpattern, Pattern.fits, hne]

end Sys2Proof.Proofs.OpcodeRows
end

section
/-! Proofs about the words outside the opcode map (spec 48 R149): the decoder refuses each class of the spec's table at
step 2. -/

open Sys2Proof.Claims Sys2Proof.Proofs.OpcodeMap Sys2Proof.Proofs.OpcodeRows

namespace Sys2Proof.Proofs.AbsentWords

/-- The major opcodes that have a row or a rule of their own (spec 30 R60; 48 R145, R148). -/
def mappedOpcodes : List (BitVec 7) :=
  [opLui, opAuipc, opJal, opJalr, opBranch, opLoad, opStore, opImm, opReg, opFence, opSystem]

/-- A word of any other major opcode is refused (spec 48 R149). -/
theorem decode_unmappedOpcode_noRow {c : Config} {w : Word} (hop : opcodeOf w ∉ mappedOpcodes) :
    decode c w = .reject .noRow := by
  have hcolumn : ∀ r ∈ rows, opcodeColumn r.pattern ∈ mappedOpcodes := by decide
  refine decode_noRow_of_opcode rfl fun r hr => ?_
  obtain ⟨hmem, heq⟩ := List.mem_filter.mp hr
  exact absurd (eq_of_beq heq ▸ hcolumn r hmem) hop

/-- The low two bits of a word are those of its major opcode (spec 30 R46). -/
theorem lowBits_opcodeOf (w : Word) : (opcodeOf w).extractLsb' 0 2 = w.extractLsb' 0 2 := by
  ext i hi
  simp [opcodeOf]

/-- The words of the compressed encodings are refused: every mapped opcode ends in `11` (spec 48 R149). -/
theorem decode_compressed_noRow {c : Config} {w : Word} (hlow : w.extractLsb' 0 2 ≠ 0b11#2) :
    decode c w = .reject .noRow := by
  have hmapped : ∀ o ∈ mappedOpcodes, o.extractLsb' 0 2 = 0b11#2 := by decide
  refine decode_unmappedOpcode_noRow fun hop => hlow ?_
  rw [← lowBits_opcodeOf, hmapped (opcodeOf w) hop]

/-- Class R has a row for `funct7` 0 and every `funct3`, and beside these only `sub` and `sra` (spec 48 R149). -/
theorem decode_opReg_noRow {c : Config} {w : Word} (hop : opcodeOf w = opReg) (hf7 : funct7Of w ≠ 0b0000000#7)
    (hsubSra : ¬(funct7Of w = 0b0100000#7 ∧ (funct3Of w = 0b000#3 ∨ funct3Of w = 0b101#3))) :
    decode c w = .reject .noRow := by
  refine decode_noRow_of_opcode hop ?_
  rw [show rowsOfOpcode opReg = rowsReg from rfl]
  by_cases harith : funct7Of w = 0b0100000#7
  · obtain ⟨hsub, hsra⟩ := not_or.mp fun hf3 => hsubSra ⟨harith, hf3⟩
    simp [rowsReg, Pattern.fits, harith, hsub, hsra]
  · simp [rowsReg, Pattern.fits, hf7, harith]

/-! Loads, stores, branches and `jalr` have no column but `funct3`, and each leaves some of its values without a row. -/

theorem decode_opLoad_noRow {c : Config} {w : Word} (hop : opcodeOf w = opLoad)
    (hf3 : funct3Of w ∈ [0b011#3, 0b110#3, 0b111#3]) : decode c w = .reject .noRow := by
  have hother : ∀ f ∈ [0b011#3, 0b110#3, 0b111#3], f ∉ [0b000#3, 0b001#3, 0b010#3, 0b100#3, 0b101#3] := by decide
  exact decode_noRow_of_funct3 (by decide) hop (hother _ hf3)

theorem decode_opStore_noRow {c : Config} {w : Word} (hop : opcodeOf w = opStore)
    (hf3 : funct3Of w ∈ [0b011#3, 0b100#3, 0b101#3, 0b110#3, 0b111#3]) : decode c w = .reject .noRow := by
  have hother : ∀ f ∈ [0b011#3, 0b100#3, 0b101#3, 0b110#3, 0b111#3], f ∉ [0b000#3, 0b001#3, 0b010#3] := by decide
  exact decode_noRow_of_funct3 (by decide) hop (hother _ hf3)

theorem decode_opBranch_noRow {c : Config} {w : Word} (hop : opcodeOf w = opBranch)
    (hf3 : funct3Of w ∈ [0b010#3, 0b011#3]) : decode c w = .reject .noRow := by
  have hother : ∀ f ∈ [0b010#3, 0b011#3], f ∉ [0b000#3, 0b001#3, 0b100#3, 0b101#3, 0b110#3, 0b111#3] := by decide
  exact decode_noRow_of_funct3 (by decide) hop (hother _ hf3)

theorem decode_opJalr_noRow {c : Config} {w : Word} (hop : opcodeOf w = opJalr) (hf3 : funct3Of w ≠ 0b000#3) :
    decode c w = .reject .noRow :=
  decode_noRow_of_funct3 (f3s := [0b000#3]) (by decide) hop (List.mem_singleton.not.mpr hf3)

/-- Every class of the spec's table is outside the opcode map (spec 48 R149). -/
theorem decode_standardButAbsent_noRow {c : Config} {w : Word} (h : StandardButAbsent w) :
    decode c w = .reject .noRow := by
  obtain hlow | ⟨hop, hf7, hsubSra⟩ | ⟨hop, hf3, hf7⟩ | ⟨hop, hf3, hlogical, harith⟩ | ⟨hop, hf3⟩ | ⟨hop, hf3⟩ |
    ⟨hop, hf3⟩ | ⟨hop, hf3⟩ | hop := h
  · exact decode_compressed_noRow hlow
  · exact decode_opReg_noRow hop hf7 hsubSra
  · exact decode_leftShift_noRow hop hf3 hf7
  · exact decode_rightShift_noRow hop hf3 hlogical harith
  · exact decode_opLoad_noRow hop hf3
  · exact decode_opStore_noRow hop hf3
  · exact decode_opBranch_noRow hop hf3
  · exact decode_opJalr_noRow hop hf3
  · exact decode_unmappedOpcode_noRow hop

end Sys2Proof.Proofs.AbsentWords
end

section
/-! Proofs about the named rows without an implementation (spec 48 R145 to R147): the decoder delivers their instruction, and its
effect is the failed step that records the word it was decoded from. -/

open Sys2Proof.Machine

namespace Sys2Proof.Proofs.UnsupportedRows

/-- The four rows (spec 48 R145 to R147). -/
theorem mem_rowsUnsupported {r : Row} (hr : r ∈ rowsUnsupported) :
    r = ⟨.op3 opFence 0b000#3, fieldsI .fence⟩ ∨ r = ⟨.op3 opFence 0b001#3, fieldsI .fencei⟩ ∨
      r = ⟨.whole 0x00000073#32, fun _ => .ecall⟩ ∨ r = ⟨.whole 0x00100073#32, fun _ => .ebreak⟩ := by
  simpa only [rowsUnsupported, List.mem_cons, List.not_mem_nil, or_false] using hr

/-- No unsupported row makes a sub-word access or carries an offset, so no later step of the decoder refuses its words. -/
theorem decode_unsupportedRow {c : Config} {w : Word} {r : Row} (hrow : rowOf w = some r) (hr : r ∈ rowsUnsupported) :
    decode c w = .instr (r.build w) := by
  rw [decode, hrow]
  obtain rfl | rfl | rfl | rfl := mem_rowsUnsupported hr <;> rfl

/-- The fields of a word that fits an I-format row encode to the word (spec 30 R49). -/
theorem wordI_of_fits_op3 {w : Word} {o : BitVec 7} {f3 : BitVec 3} (hfit : (Pattern.op3 o f3).fits w = true) :
    wordI (immIOf w) (rs1Of w) f3 (rdOf w) o = w := by
  obtain ⟨hop, hf3⟩ := Bool.and_eq_true_iff.mp hfit
  rw [← eq_of_beq hop, ← eq_of_beq hf3, wordI_fields]

/-- The instruction of an unsupported row keeps every bit of the word: the I format the bits that are not looked at (spec 48
R145), a whole word its own. -/
theorem encode_unsupportedRow {w : Word} {r : Row} (hr : r ∈ rowsUnsupported) (hfit : r.pattern.fits w = true) :
    encode (r.build w) = w := by
  obtain rfl | rfl | rfl | rfl := mem_rowsUnsupported hr
  · exact wordI_of_fits_op3 hfit
  · exact wordI_of_fits_op3 hfit
  · exact (eq_of_beq hfit).symm
  · exact (eq_of_beq hfit).symm

/-- The instruction of an unsupported row is the failed step that records its word (spec 48 R145 to R147). -/
theorem exec_unsupportedRow {r : Row} (hr : r ∈ rowsUnsupported) (w : Word) (s : State) :
    exec (r.build w) s = .next (s.raise .decodeError (encode (r.build w))) := by
  obtain rfl | rfl | rfl | rfl := mem_rowsUnsupported hr <;> rfl

end Sys2Proof.Proofs.UnsupportedRows
end

section
/-! Proofs about the words the hardware does not implement (spec 48): a Ready step on any of them is the failed step with
DecodeError. -/

open Sys2Proof.Machine Sys2Proof.Claims Sys2Proof.Proofs.OpcodeRows Sys2Proof.Proofs.AbsentWords
  Sys2Proof.Proofs.UnsupportedRows

namespace Sys2Proof.Proofs.Unsupported

/-- A word outside the opcode map fails with DecodeError (spec 48 R149). -/
theorem step_fails_of_noRow {s : State} (ready : s.status = .ready) (hd : decode s.cfg s.fetchWord = .reject .noRow) :
    Fails (step s) s .decodeError s.fetchWord :=
  step_reject ready hd

/-- A word of a major opcode that has unsupported rows alone fails with DecodeError, whether one of them fits or none. -/
theorem step_fails_of_unsupportedOpcode {s : State} {o : BitVec 7} (ready : s.status = .ready)
    (hop : opcodeOf s.fetchWord = o) (hrows : rowsOfOpcode o ⊆ rowsUnsupported) :
    Fails (step s) s .decodeError s.fetchWord := by
  cases hrow : rowOf s.fetchWord with
  | none =>
    have hd : decode s.cfg s.fetchWord = .reject .noRow := by rw [decode, hrow]
    exact step_fails_of_noRow ready hd
  | some r =>
    have hfit : r.pattern.fits s.fetchWord = true := (List.find?_some hrow :)
    have hr : r ∈ rowsUnsupported := hrows (hop ▸ mem_rowsOfOpcode_of_fits (List.mem_of_find?_eq_some hrow) hfit)
    rw [Fails, step_instr ready (decode_unsupportedRow hrow hr), exec_unsupportedRow hr,
      encode_unsupportedRow hr hfit, State.raise]

/-- The opcode map has `fence` and `fence.i` for this major opcode (spec 48 R145). -/
theorem rowsOfOpcode_opFence_subset : rowsOfOpcode opFence ⊆ rowsUnsupported := by
  rw [show rowsOfOpcode opFence = rowsUnsupported.take 2 from rfl]
  exact List.take_subset 2 rowsUnsupported

/-- The opcode map has `ecall` and `ebreak` for this major opcode (spec 48 R146 to R148). -/
theorem rowsOfOpcode_opSystem_subset : rowsOfOpcode opSystem ⊆ rowsUnsupported := by
  rw [show rowsOfOpcode opSystem = rowsUnsupported.drop 2 from rfl]
  exact List.drop_subset 2 rowsUnsupported

/-- Settles O8: `fence` and `fence.i` have the only rows of the opcode, and a word that fits neither has no row (spec 48 R145). -/
theorem fenceWordsFail : Obligations.FenceWordsFail :=
  fun _ ready hop => step_fails_of_unsupportedOpcode ready hop rowsOfOpcode_opFence_subset

/-- Settles O9: `ecall` and `ebreak` have the only rows of the opcode, and a word that fits neither has no row
(spec 48 R146 to R148). -/
theorem systemWordsFail : Obligations.SystemWordsFail :=
  fun _ ready hop => step_fails_of_unsupportedOpcode ready hop rowsOfOpcode_opSystem_subset

/-- Settles O10: the decoder refuses both kinds of word at step 2, those that fit no row and the classes of the spec's table
(spec 48 R149). -/
theorem otherWordsFail : Obligations.OtherWordsFail := by
  rintro s ready (hno | habsent)
  · exact step_fails_of_noRow ready (decode_noRow.mpr hno)
  · exact step_fails_of_noRow ready (decode_standardButAbsent_noRow habsent)

end Sys2Proof.Proofs.Unsupported
end

section
/-! Proofs about the host's `reset` and `load` (spec 70 R171 to R177): what `reset` leaves, and the first step afterwards. -/

open Sys2Proof.Machine

namespace Sys2Proof.Proofs.Reset

/-- `reset` keeps the build and the program and depends on nothing else, so a second one changes nothing (spec 70 R174). -/
theorem hostReset_hostReset (s : State) : s.hostReset.hostReset = s.hostReset := by
  rw [State.hostReset, State.hostReset_cfg, State.hostReset_im, ← State.hostReset]

/-- `reset` zero-fills the registers (spec 70 R171). -/
theorem readReg_hostReset (s : State) (r : RegIdx) : s.hostReset.readReg r = 0#32 :=
  State.readReg_initial s.cfg s.im r

/-- `reset` zero-fills the data memory (spec 70 R171). -/
theorem readByte_hostReset (s : State) (a : Nat) : s.hostReset.mem.readByte a = 0#8 := by
  rw [State.hostReset_mem, Memory.readByte, Memory.unlisted]

/-- Settles O30: the second `reset` changes nothing, and what the first leaves is zero or absent (spec 70 R174). -/
theorem resetIdempotent : Obligations.ResetIdempotent := by
  intro s
  exact ⟨hostReset_hostReset s, readReg_hostReset s, readByte_hostReset s, s.hostReset_pc, s.hostReset_snap⟩

/-! `reset` and `load` lead to the same kind of state: `State.initial` with a program. -/

/-- A program with an instruction 0 makes the initial machine Ready: its PC is 0 and it holds no error (spec 10 R21, R28). -/
theorem status_initial_cons (c : Config) (w : Word) (p : List Word) : (State.initial c (w :: p)).status = .ready :=
  status_ready.mpr ⟨rfl, p.length.succ_pos⟩

/-- The initial machine fetches instruction 0 (spec 70 R177). -/
theorem fetchWord_initial_cons (c : Config) (w : Word) (p : List Word) : (State.initial c (w :: p)).fetchWord = w := rfl

/-- `load` of a program, and `reset` of a machine that holds it, both lead to the initial machine (spec 70 R171, R172). -/
theorem eq_initial_of_load_or_reset {s t : State} {p : List Word}
    (h : t = s.hostLoad p ∨ (s.im = p ∧ t = s.hostReset)) : t = State.initial s.cfg p := by
  obtain rfl | ⟨rfl, rfl⟩ := h
  · rw [State.hostLoad]
  · rw [State.hostReset]

/-- Settles O31: `load` and `reset` both lead to the initial machine, which is Ready and fetches instruction 0; its step then
runs what the decoder answers for that word (spec 70 R177; 40 R91). -/
theorem entryIsInstructionZero : Obligations.EntryIsInstructionZero := by
  intro s t w p h
  obtain rfl := eq_initial_of_load_or_reset h
  have ready := status_initial_cons s.cfg w p
  exact ⟨ready, fetchWord_initial_cons s.cfg w p, fun _ => step_instr ready, fun _ => step_reject ready⟩

end Sys2Proof.Proofs.Reset
end

section
/-! Proofs about the opcode map (spec 30 R60) as a partition: no word fits two of its rows, so the row that fits a word is the
one the decoder takes. -/

open Sys2Proof.Proofs.OpcodeMap

namespace Sys2Proof.Proofs.RowExclusion

/-- The column `funct3` of a row's fixed bits, if it has one (spec 30 R60). -/
def funct3Column : Pattern → Option (BitVec 3)
  | .op _ => none
  | .op3 _ f3 | .op37 _ f3 _ => some f3
  | .whole v => some (funct3Of v)

/-- The column `funct7` of a row's fixed bits, if it has one (spec 30 R60). -/
def funct7Column : Pattern → Option (BitVec 7)
  | .op _ | .op3 _ _ => none
  | .op37 _ _ f7 => some f7
  | .whole v => some (funct7Of v)

/-- The whole word of `ecall` and `ebreak` (spec 48 R146, R147). -/
def wordColumn : Pattern → Option Word
  | .op _ | .op3 _ _ | .op37 _ _ _ => none
  | .whole v => some v

theorem funct3Column_of_fits {p : Pattern} {w : Word} (hfit : p.fits w = true) : ∀ f3 ∈ funct3Column p, f3 = funct3Of w := by
  cases p <;> simp_all [Pattern.fits, funct3Column]

theorem funct7Column_of_fits {p : Pattern} {w : Word} (hfit : p.fits w = true) : ∀ f7 ∈ funct7Column p, f7 = funct7Of w := by
  cases p <;> simp_all [Pattern.fits, funct7Column]

theorem wordColumn_of_fits {p : Pattern} {w : Word} (hfit : p.fits w = true) : ∀ v ∈ wordColumn p, v = w := by
  cases p <;> simp_all [Pattern.fits, wordColumn]

/-- Two entries of a column do not tell their rows apart: they are equal, or one row leaves the column open. -/
def agree {α : Type} [DecidableEq α] : Option α → Option α → Bool
  | some a, some b => decide (a = b)
  | none, _ | some _, none => true

/-- Entries that both name what stands in one word agree. -/
theorem agree_of_common {α : Type} [DecidableEq α] {x y : Option α} {c : α} (hx : ∀ a ∈ x, a = c) (hy : ∀ b ∈ y, b = c) :
    agree x y = true := by
  cases x with
  | none => rfl
  | some a =>
    cases y with
    | none => rfl
    | some b => rw [agree, hx a rfl, hy b rfl, decide_eq_true rfl]

/-- No column of the map tells the two patterns apart. -/
def overlap (p q : Pattern) : Bool :=
  decide (opcodeColumn p = opcodeColumn q) && agree (funct3Column p) (funct3Column q) &&
    agree (funct7Column p) (funct7Column q) && agree (wordColumn p) (wordColumn q)

/-- Patterns that one word fits overlap: every column they fix holds what the word has there. -/
theorem overlap_of_fits {p q : Pattern} {w : Word} (hp : p.fits w = true) (hq : q.fits w = true) : overlap p q = true := by
  have opcode : opcodeColumn p = opcodeColumn q := (opcodeColumn_of_fits hp).trans (opcodeColumn_of_fits hq).symm
  have funct3 := agree_of_common (funct3Column_of_fits hp) (funct3Column_of_fits hq)
  have funct7 := agree_of_common (funct7Column_of_fits hp) (funct7Column_of_fits hq)
  have word := agree_of_common (wordColumn_of_fits hp) (wordColumn_of_fits hq)
  rw [overlap, decide_eq_true opcode, funct3, funct7, word]
  rfl

/-- The 41 rows are pairwise told apart by a column (spec 30 R60, last sentence). -/
theorem rows_pairwise_no_overlap : rows.Pairwise fun r r' => overlap r.pattern r'.pattern = false := by decide

/-- Of two rows at different places, no word fits both. -/
theorem not_fits_both_of_lt {w : Word} {j k : Nat} {hj : j < rows.length} {hk : k < rows.length} (hlt : j < k)
    (hfj : (rows[j]).pattern.fits w = true) (hfk : (rows[k]).pattern.fits w = true) : False := by
  have apart := List.pairwise_iff_getElem.mp rows_pairwise_no_overlap j k hj hk hlt
  rw [overlap_of_fits hfj hfk] at apart
  cases apart

/-- Settles O4: a word that fits two rows has what both fix, and two different rows fix some column differently
(spec 30 R60). -/
theorem opcodeRowsExclusive : Obligations.OpcodeRowsExclusive := by
  intro w j k hj hk hfj hfk
  obtain hlt | heq | hgt := Nat.lt_trichotomy j k
  · exact (not_fits_both_of_lt hlt hfj hfk).elim
  · exact heq
  · exact (not_fits_both_of_lt hgt hfk hfj).elim

/-- A row that fits a word is the row of the word: there is no earlier one. -/
theorem rowOf_of_fits {r : Row} {w : Word} (hr : r ∈ rows) (hfit : r.pattern.fits w = true) : rowOf w = some r := by
  obtain ⟨j, hj, rfl⟩ := List.getElem_of_mem hr
  refine List.find?_eq_some_iff_getElem.mpr ⟨hfit, j, hj, rfl, fun k hlt => ?_⟩
  rw [Bool.not_eq_true', Bool.eq_false_iff]
  exact fun hfk => not_fits_both_of_lt hlt hfk hfit

/-- What the decoder answers for a word that fits a row: steps 3 to 5 of spec 30 R60. -/
theorem decode_of_fits {c : Config} {r : Row} {w : Word} (hr : r ∈ rows) (hfit : r.pattern.fits w = true) :
    decode c w = if !(r.build w).wellFormed c then .reject .subwordAbsent
      else if offsetNotWhole w (r.build w) then .reject .offsetNotWhole else .instr (r.build w) := by
  rw [decode, rowOf_of_fits hr hfit]

end Sys2Proof.Proofs.RowExclusion
end

section
/-! Proofs about the round trip of the encoding (spec 30 R60), from instructions to words: the word of an instruction fits the
instruction's row, and the row's fields are its operands. -/

open Sys2Proof.Proofs.RowExclusion

namespace Sys2Proof.Proofs.DecodeEncode

/-- The row reads the instruction back from the instruction's word. -/
def ReadsBack (r : Row) (i : Instr) : Prop := r.pattern.fits (encode i) = true ∧ r.build (encode i) = i

/-! One lemma per format: a row reads back the instructions whose words have its fixed bits (spec 30 R48 to R53). -/

section Formats

variable {op : BitVec 7} {f3 : BitVec 3} {f7 : BitVec 7} {rd rs1 rs2 shamt : RegIdx} {imm : BitVec 12}

theorem readsBack_I {mk : RegIdx → RegIdx → BitVec 12 → Instr} (word : encode (mk rd rs1 imm) = wordI imm rs1 f3 rd op) :
    ReadsBack ⟨.op3 op f3, fieldsI mk⟩ (mk rd rs1 imm) := by
  rw [ReadsBack, word]; simp [Pattern.fits, fieldsI]

theorem readsBack_shift {mk : RegIdx → RegIdx → BitVec 5 → Instr}
    (word : encode (mk rd rs1 shamt) = wordR f7 shamt rs1 f3 rd op) :
    ReadsBack ⟨.op37 op f3 f7, fieldsShift mk⟩ (mk rd rs1 shamt) := by
  rw [ReadsBack, word]; simp [Pattern.fits, fieldsShift]

theorem readsBack_R {mk : RegIdx → RegIdx → RegIdx → Instr} (word : encode (mk rd rs1 rs2) = wordR f7 rs2 rs1 f3 rd op) :
    ReadsBack ⟨.op37 op f3 f7, fieldsR mk⟩ (mk rd rs1 rs2) := by
  rw [ReadsBack, word]; simp [Pattern.fits, fieldsR]

theorem readsBack_S {mk : RegIdx → RegIdx → BitVec 12 → Instr} (word : encode (mk rs2 rs1 imm) = wordS imm rs2 rs1 f3 op) :
    ReadsBack ⟨.op3 op f3, fieldsS mk⟩ (mk rs2 rs1 imm) := by
  rw [ReadsBack, word]; simp [Pattern.fits, fieldsS]

theorem readsBack_B {mk : RegIdx → RegIdx → BitVec 11 → Instr} {off : BitVec 11}
    (word : encode (mk rs1 rs2 off) = wordB (byteOffB off) rs2 rs1 f3 op) :
    ReadsBack ⟨.op3 op f3, fieldsB mk⟩ (mk rs1 rs2 off) := by
  rw [ReadsBack, word]; simp [Pattern.fits, fieldsB]

theorem readsBack_U {mk : RegIdx → BitVec 20 → Instr} {imm20 : BitVec 20} (word : encode (mk rd imm20) = wordU imm20 rd op) :
    ReadsBack ⟨.op op, fieldsU mk⟩ (mk rd imm20) := by
  rw [ReadsBack, word]; simp [Pattern.fits, fieldsU]

theorem readsBack_J {mk : RegIdx → BitVec 19 → Instr} {off : BitVec 19}
    (word : encode (mk rd off) = wordJ (byteOffJ off) rd op) : ReadsBack ⟨.op op, fieldsJ mk⟩ (mk rd off) := by
  rw [ReadsBack, word]; simp [Pattern.fits, fieldsJ]

theorem readsBack_whole {w : Word} {i : Instr} (word : encode i = w) : ReadsBack ⟨.whole w, fun _ => i⟩ i :=
  ⟨beq_of_eq word, rfl⟩

end Formats

/-- The place of an instruction's row in the opcode map, counted from 0 as in opcode_table.json. -/
def rowNumber : Instr → Nat
  | .lui _ _ => 0 | .auipc _ _ => 1 | .jal _ _ => 2 | .jalr _ _ _ => 3
  | .beq _ _ _ => 4 | .bne _ _ _ => 5 | .blt _ _ _ => 6 | .bge _ _ _ => 7 | .bltu _ _ _ => 8 | .bgeu _ _ _ => 9
  | .lb _ _ _ => 10 | .lh _ _ _ => 11 | .lw _ _ _ => 12 | .lbu _ _ _ => 13 | .lhu _ _ _ => 14
  | .sb _ _ _ => 15 | .sh _ _ _ => 16 | .sw _ _ _ => 17
  | .addi _ _ _ => 18 | .slti _ _ _ => 19 | .sltiu _ _ _ => 20 | .xori _ _ _ => 21 | .ori _ _ _ => 22 | .andi _ _ _ => 23
  | .slli _ _ _ => 24 | .srli _ _ _ => 25 | .srai _ _ _ => 26
  | .add _ _ _ => 27 | .sub _ _ _ => 28 | .sll _ _ _ => 29 | .slt _ _ _ => 30 | .sltu _ _ _ => 31 | .xor _ _ _ => 32
  | .srl _ _ _ => 33 | .sra _ _ _ => 34 | .or _ _ _ => 35 | .and _ _ _ => 36
  | .fence _ _ _ => 37 | .fencei _ _ _ => 38 | .ecall => 39 | .ebreak => 40

/-- Each instruction has its row: the one at its number reads it back, by the lemma of the row's format. -/
theorem exists_readsBack (i : Instr) : ∃ r, rows[rowNumber i]? = some r ∧ ReadsBack r i := by
  cases i <;> refine ⟨_, rfl, ?_⟩
  case lui | auipc => exact readsBack_U rfl
  case jal => exact readsBack_J rfl
  case beq | bne | blt | bge | bltu | bgeu => exact readsBack_B rfl
  case sb | sh | sw => exact readsBack_S rfl
  case slli | srli | srai => exact readsBack_shift rfl
  case add | sub | sll | slt | sltu | xor | srl | sra | or | and => exact readsBack_R rfl
  case ecall | ebreak => exact readsBack_whole rfl
  all_goals exact readsBack_I rfl

/-- The encoder writes whole numbers of instructions only (spec 30 R67). -/
theorem offsetNotWhole_encode (i : Instr) : offsetNotWhole (encode i) i = false := by
  cases i
  case beq | bne | blt | bge | bltu | bgeu => exact immBOf_bit1_wordB ..
  case jal => exact immJOf_bit1_wordJ ..
  all_goals rfl

/-- Settles O2: the instruction's own row fits its word, so it is the row the decoder takes; it reads the instruction back, and
steps 3 and 4 have nothing to refuse (spec 30 R60). -/
theorem decodeOfEncode : Obligations.DecodeOfEncode := by
  intro c i present
  obtain ⟨r, hrow, hfit, hbuild⟩ := exists_readsBack i
  rw [decode_of_fits (List.mem_of_getElem? hrow) hfit, hbuild, present, offsetNotWhole_encode]
  rfl

end Sys2Proof.Proofs.DecodeEncode
end

section
/-! Proofs about the round trip of the encoding (spec 30 R60), from words to instructions: the fields a row reads and its fixed
bits are all the bits of a word. -/

open Sys2Proof.Proofs.UnsupportedRows

namespace Sys2Proof.Proofs.EncodeDecode

/-- The row keeps every bit of the words it delivers: those that fit it and whose offset, if they have one, is whole. -/
def KeepsWord (r : Row) : Prop :=
  ∀ w, r.pattern.fits w = true → offsetNotWhole w (r.build w) = false → encode (r.build w) = w

/-- The three columns of a word that fits a row with `funct7`. -/
theorem fields_of_fits_op37 {w : Word} {o : BitVec 7} {f3 : BitVec 3} {f7 : BitVec 7}
    (hfit : (Pattern.op37 o f3 f7).fits w = true) : opcodeOf w = o ∧ funct3Of w = f3 ∧ funct7Of w = f7 := by
  simpa [Pattern.fits, and_assoc] using hfit

/-- The two columns of a word that fits a row with `funct3` alone. -/
theorem fields_of_fits_op3 {w : Word} {o : BitVec 7} {f3 : BitVec 3} (hfit : (Pattern.op3 o f3).fits w = true) :
    opcodeOf w = o ∧ funct3Of w = f3 := by
  simpa [Pattern.fits] using hfit

/-! One lemma per format: the row's fixed bits and fields make up the word (spec 30 R48 to R53). -/

section Formats

variable {op : BitVec 7} {f3 : BitVec 3} {f7 : BitVec 7}

theorem keepsWord_I {mk : RegIdx → RegIdx → BitVec 12 → Instr}
    (word : ∀ rd rs1 imm, encode (mk rd rs1 imm) = wordI imm rs1 f3 rd op) : KeepsWord ⟨.op3 op f3, fieldsI mk⟩ :=
  fun _ hfit _ => (word ..).trans (wordI_of_fits_op3 hfit)

theorem keepsWord_shift {mk : RegIdx → RegIdx → BitVec 5 → Instr}
    (word : ∀ rd rs1 shamt, encode (mk rd rs1 shamt) = wordR f7 shamt rs1 f3 rd op) :
    KeepsWord ⟨.op37 op f3 f7, fieldsShift mk⟩ := by
  intro w hfit _
  obtain ⟨rfl, rfl, rfl⟩ := fields_of_fits_op37 hfit
  exact (word ..).trans (wordR_fields w)

theorem keepsWord_R {mk : RegIdx → RegIdx → RegIdx → Instr}
    (word : ∀ rd rs1 rs2, encode (mk rd rs1 rs2) = wordR f7 rs2 rs1 f3 rd op) : KeepsWord ⟨.op37 op f3 f7, fieldsR mk⟩ := by
  intro w hfit _
  obtain ⟨rfl, rfl, rfl⟩ := fields_of_fits_op37 hfit
  exact (word ..).trans (wordR_fields w)

theorem keepsWord_S {mk : RegIdx → RegIdx → BitVec 12 → Instr}
    (word : ∀ rs2 rs1 imm, encode (mk rs2 rs1 imm) = wordS imm rs2 rs1 f3 op) : KeepsWord ⟨.op3 op f3, fieldsS mk⟩ := by
  intro w hfit _
  obtain ⟨rfl, rfl⟩ := fields_of_fits_op3 hfit
  exact (word ..).trans (wordS_fields w)

/-- A branch keeps the byte offset too, whose low two bits are 0 by its format and by step 4 (spec 30 R56). -/
theorem keepsWord_B {mk : RegIdx → RegIdx → BitVec 11 → Instr}
    (word : ∀ rs1 rs2 off, encode (mk rs1 rs2 off) = wordB (byteOffB off) rs2 rs1 f3 op)
    (half : ∀ w rs1 rs2 off, offsetNotWhole w (mk rs1 rs2 off) = (immBOf w)[1]) : KeepsWord ⟨.op3 op f3, fieldsB mk⟩ := by
  intro w hfit hwhole
  obtain ⟨rfl, rfl⟩ := fields_of_fits_op3 hfit
  have hoff : byteOffB (offBOf w) = immBOf w := byteOffB_offBOf w ((half ..).symm.trans hwhole)
  exact (word ..).trans (by rw [hoff, wordB_fields])

theorem keepsWord_U {mk : RegIdx → BitVec 20 → Instr} (word : ∀ rd imm20, encode (mk rd imm20) = wordU imm20 rd op) :
    KeepsWord ⟨.op op, fieldsU mk⟩ := by
  intro w hfit _
  obtain rfl : opcodeOf w = op := eq_of_beq hfit
  exact (word ..).trans (wordU_fields w)

/-- `jal` keeps its byte offset as a branch does (spec 30 R58). -/
theorem keepsWord_jal : KeepsWord ⟨.op opJal, fieldsJ .jal⟩ := by
  intro w hfit hwhole
  have hop : opcodeOf w = opJal := eq_of_beq hfit
  have hoff : byteOffJ (offJOf w) = immJOf w := byteOffJ_offJOf w hwhole
  calc encode (.jal (rdOf w) (offJOf w))
    _ = wordJ (immJOf w) (rdOf w) (opcodeOf w) := by rw [encode, hoff, hop]
    _ = w := wordJ_fields w

end Formats

theorem keepsWord_rowsControl : ∀ r ∈ rowsControl, KeepsWord r := by
  simp only [rowsControl, List.forall_mem_cons]
  refine ⟨?lui, ?auipc, keepsWord_jal, ?jalr, ?beq, ?bne, ?blt, ?bge, ?bltu, ?bgeu, List.forall_mem_nil _⟩
  case lui | auipc => exact keepsWord_U fun _ _ => rfl
  case jalr => exact keepsWord_I fun _ _ _ => rfl
  all_goals exact keepsWord_B (fun _ _ _ => rfl) fun _ _ _ _ => rfl

theorem keepsWord_rowsMemory : ∀ r ∈ rowsMemory, KeepsWord r := by
  simp only [rowsMemory, List.forall_mem_cons]
  refine ⟨?lb, ?lh, ?lw, ?lbu, ?lhu, ?sb, ?sh, ?sw, List.forall_mem_nil _⟩
  case sb | sh | sw => exact keepsWord_S fun _ _ _ => rfl
  all_goals exact keepsWord_I fun _ _ _ => rfl

theorem keepsWord_rowsImm : ∀ r ∈ rowsImm, KeepsWord r := by
  simp only [rowsImm, List.forall_mem_cons]
  refine ⟨?addi, ?slti, ?sltiu, ?xori, ?ori, ?andi, ?slli, ?srli, ?srai, List.forall_mem_nil _⟩
  case slli | srli | srai => exact keepsWord_shift fun _ _ _ => rfl
  all_goals exact keepsWord_I fun _ _ _ => rfl

theorem keepsWord_rowsReg : ∀ r ∈ rowsReg, KeepsWord r := by
  simp only [rowsReg, List.forall_mem_cons]
  refine ⟨?add, ?sub, ?sll, ?slt, ?sltu, ?xor, ?srl, ?sra, ?or, ?and, List.forall_mem_nil _⟩
  all_goals exact keepsWord_R fun _ _ _ => rfl

/-- Every row of the opcode map keeps the words it delivers. -/
theorem keepsWord_rows {r : Row} (hr : r ∈ rows) : KeepsWord r := by
  simp only [rows, List.mem_append] at hr
  obtain h | h | h | h | h := hr
  · exact keepsWord_rowsControl r h
  · exact keepsWord_rowsMemory r h
  · exact keepsWord_rowsImm r h
  · exact keepsWord_rowsReg r h
  · exact fun _ hfit _ => encode_unsupportedRow h hfit

/-- Settles O3: a delivered word fits a row and has a whole offset, so the row keeps it, and step 3 has passed
(spec 30 R60). -/
theorem encodeOfDecode : Obligations.EncodeOfDecode := by
  intro c w i hd
  obtain ⟨r, hr, hfit, rfl, present, hwhole⟩ := decode_instr hd
  exact ⟨keepsWord_rows hr w hfit hwhole, present⟩

/-- The word of a delivered instruction is the word it was decoded from. -/
theorem encode_of_decode {c : Config} {w : Word} {i : Instr} (hd : decode c w = .instr i) : encode i = w := by
  obtain ⟨hword, -⟩ := encodeOfDecode c w i hd
  exact hword

end Sys2Proof.Proofs.EncodeDecode
end

section
/-! Proofs about what a step comes to (spec 40 R91; 60 R153 to R156): it does nothing, fails on a word in error, or completes a
supported instruction. -/

open Sys2Proof.Machine Sys2Proof.Proofs.EncodeDecode

namespace Sys2Proof.Proofs.StepOutcome

/-- The register port is open for every class but store and branch (spec 40 R82). -/
theorem wer_iff (cls : InstrClass) (op : AluOp) : (controlSignals cls op).wer = true ↔ cls ≠ .store ∧ cls ≠ .branch := by
  cases cls <;> simp [controlSignals]

/-- A supported instruction completes: it leaves the error record and commits the snapshot of its class (spec 40 R90). -/
theorem effect_of_supported {s t : State} {i : Instr} (hs : Supported s.cfg i = true) (he : Effect s i t) :
    ∃ cls op, signals i = some (cls, op) ∧ t.err = s.err ∧ t.snap = some (controlSignals cls op) := by
  cases he with
  | writes cls op v k p hi => exact ⟨cls, op, hi, rfl, rfl⟩
  | stores rs2 rs1 imm m hi => exact ⟨.store, .add, signals_store hi, rfl, rfl⟩
  | branches op k p hi => exact ⟨.branch, op, hi, rfl, rfl⟩
  | fails hno => rw [hs] at hno; cases hno

/-- An instruction that the build has in its opcode map but does not support fails (spec 48 R145 to R147). -/
theorem effect_of_unsupported {s t : State} {i : Instr} (present : i.wellFormed s.cfg = true)
    (hs : Supported s.cfg i = false) (he : Effect s i t) : t = s.raise .decodeError (encode i) := by
  cases he with
  | writes cls op v k p hi => simp [Supported, present, hi] at hs
  | stores rs2 rs1 imm m hi => simp [Supported, present, signals_store hi] at hs
  | branches op k p hi => simp [Supported, present, hi] at hs
  | fails => rfl

/-- A word that decodes to a supported instruction is not in error. -/
theorem wordError_supported {c : Config} {w : Word} {i : Instr} (hd : decode c w = .instr i) (hs : Supported c i = true) :
    wordError c w = none := by
  simp [wordError, hd, hs]

/-- The codes of words in error (spec 60 R153, R154). -/
theorem wordError_code {c : Config} {w : Word} {code : ErrCode} (h : wordError c w = some code) :
    code = .decodeError ∨ code = .operandError := by
  cases hd : decode c w with
  | reject r =>
    rw [wordError_reject hd] at h
    cases r <;> cases h <;> simp [rejectCode]
  | instr i =>
    cases hs : Supported c i with
    | true => rw [wordError_supported hd hs] at h; cases h
    | false => rw [wordError_unsupported hd hs] at h; cases h; exact .inl rfl

/-- The three things a step comes to, told apart by the status and by whether the word is in error. -/
inductive StepsTo (s : State) : State → Prop where
  | idle (notReady : s.status ≠ .ready) : StepsTo s s
  | fails (ready : s.status = .ready) (code : ErrCode) (inError : wordError s.cfg s.fetchWord = some code) :
      StepsTo s (s.raise code s.fetchWord)
  | completes (ready : s.status = .ready) (i : Instr) (t : State) (hd : decode s.cfg s.fetchWord = .instr i)
      (hs : Supported s.cfg i = true) (he : Effect s i t) : StepsTo s t

/-- The inversion of a step that answered `t`. -/
theorem stepsTo_of_step {s t : State} (h : step s = .next t) : StepsTo s t := by
  obtain ⟨notReady, hstep⟩ | ⟨ready, r, hd, hstep⟩ | ⟨ready, i, hd, u, hstep, he⟩ := step_cases s <;>
    rw [hstep] at h <;> cases h
  · exact .idle notReady
  · exact .fails ready _ (wordError_reject hd)
  · cases hs : Supported s.cfg i with
    | true => exact .completes ready i _ hd hs he
    | false =>
      obtain ⟨hword, present⟩ := encodeOfDecode _ _ _ hd
      rw [effect_of_unsupported present hs he, hword]
      exact .fails ready _ (wordError_unsupported hd hs)

end Sys2Proof.Proofs.StepOutcome
end

section
/-! Proofs about the errors of a step (spec 60; 40 R71): which step raises one, which codes there are, and what clears it. -/

open Sys2Proof.Machine Sys2Proof.Claims Sys2Proof.Proofs.Step Sys2Proof.Proofs.StepOutcome

namespace Sys2Proof.Proofs.Errors

/-- Settles O15: a Ready step fails with the error of its word, or its word decodes to a supported instruction, which completes
(spec 60 R156, R159; 40 R82, R90). -/
theorem errorsArePrecise : Obligations.ErrorsArePrecise := by
  intro s ready
  obtain ⟨t, hstep⟩ := stepIsTotal s
  cases stepsTo_of_step hstep with
  | idle notReady => exact absurd ready notReady
  | fails _ code inError =>
    refine ⟨fun code' h => ?_, fun h => ?_⟩
    · rw [inError] at h; cases h; exact hstep
    · rw [inError] at h; cases h
  | completes _ i _ hd hs he =>
    refine ⟨fun code h => ?_, fun _ => ?_⟩
    · rw [wordError_supported hd hs] at h; cases h
    · obtain ⟨cls, op, hi, herr, hsnap⟩ := effect_of_supported hs he
      obtain ⟨noError, -⟩ := status_ready.mp ready
      exact ⟨i, cls, op, t, hd, hi, hstep, herr.trans noError, hsnap⟩

/-- Settles O16: a step that fails does so with the error of its word, whose codes are DecodeError and OperandError; every other
step leaves the record (spec 60 R157, R158). -/
theorem misalignmentNeverRaised : Obligations.MisalignmentNeverRaised := by
  intro s t hstep e he
  cases stepsTo_of_step hstep with
  | idle => exact .inl he
  | fails _ code inError => cases he; exact .inr (wordError_code inError)
  | completes _ i _ _ hs heff =>
    obtain ⟨-, -, -, herr, -⟩ := effect_of_supported hs heff
    exact .inl (herr.symm.trans he)

/-- A run of `n + 1` steps is a step and a run of `n` (spec 70 R182). -/
theorem run_succ {s t : State} (hstep : step s = .next t) (n : Nat) : core.run (n + 1) s = core.run n t := by
  simp only [Host.Core.run, show core.step s = .next t from hstep]

/-- A machine that is not Ready is at a fixed point of every run (spec 40 R71). -/
theorem runs_of_notReady {s : State} (notReady : s.status ≠ .ready) (n : Nat) : Runs n s s := by
  induction n with
  | zero => rfl
  | succ n ih => exact (run_succ (step_notReady notReady) n).trans ih

/-- Settles O17: stepping is idle when not Ready, by induction on the number of steps; the host's operations start with no
record (spec 40 R71; 60 R162). -/
theorem notReadyIsFixed : Obligations.NotReadyIsFixed :=
  fun s notReady => ⟨runs_of_notReady notReady, s.hostReset_err, s.hostLoad_err⟩

/-- Halted means no error and a PC at the end of the program or beyond (spec 10 R21). -/
theorem status_halted {s : State} : s.status = .halted ↔ s.err = none ∧ s.im.length ≤ s.pc.toNat := by
  unfold State.status
  split
  · simp [*]
  · split <;> simp_all

/-- Settles O18: the three lines of the status output (spec 10 R21). -/
theorem statusOutput : Obligations.StatusOutput :=
  fun _ => ⟨status_error, status_halted, status_ready⟩

end Sys2Proof.Proofs.Errors
end

section
/-! Proofs about the invariant of the machine (spec 10; 20 R33; 40 R82, R88; 60 R155): the parts of a step keep it, each on its
own, and the state after `reset`, `load` and power-on meets it. -/

open Sys2Proof.Machine Sys2Proof.Proofs.StepOutcome

namespace Sys2Proof.Proofs.Invariant

/-- A register write cannot reach register 0, and nothing else of the invariant is about registers (spec 10 R12). -/
theorem inv_writeReg {s : State} (h : s.Inv) (rd : RegIdx) (v : Word) : (s.writeReg rd v).Inv :=
  { h with zero := (s.writeReg_slot0 rd v).trans h.zero }

/-- A store keeps the canonical form. -/
theorem wf_storedMemory {s : State} {a : Word} {m : Memory} (h : s.mem.wf = true) (hm : StoredMemory s a m) :
    m.wf = true := by
  obtain rfl | ⟨v, -, rfl | rfl | rfl⟩ := hm
  · exact h
  · exact Memory.wf_writeWord h a.toNat v
  · exact Memory.wf_writeLow16 h a.toNat v
  · exact Memory.wf_writeLow8 h a.toNat v

/-- A store changes no word but the one at its address, and that only in range (spec 20 R33, R37). -/
theorem readWord_storedMemory {s : State} {a : Word} {m : Memory} (h : s.mem.wf = true) (hm : StoredMemory s a m) {k : Nat}
    (other : ¬(k = a.toNat ∧ k < s.cfg.memWords)) : m.readWord k = s.mem.readWord k := by
  obtain rfl | ⟨v, inside, hm⟩ := hm
  · rfl
  · have hne : a.toNat ≠ k := fun heq => other ⟨heq.symm, heq ▸ inside⟩
    obtain rfl | rfl | rfl := hm
    · rw [Memory.readWord_writeWord h, if_neg hne]
    · rw [Memory.readWord_writeLow16 h, if_neg hne]
    · rw [Memory.readWord_writeLow8 h, if_neg hne]

/-- A store keeps memory canonical and zero beyond MEM_WORDS (spec 20 R33). -/
theorem inv_store {s : State} {a : Word} {m : Memory} (h : s.Inv) (hm : StoredMemory s a m) :
    ({ s with mem := m } : State).Inv :=
  { h with
    canonical := wf_storedMemory h.canonical hm
    mapped := fun k hk =>
      (readWord_storedMemory h.canonical hm fun ⟨_, inside⟩ => absurd inside (Nat.not_lt.mpr hk)).trans (h.mapped k hk) }

/-- The encoder's snapshot names its own class and operation (spec 40 R82). -/
theorem controlSignals_self (cls : InstrClass) (op : AluOp) :
    controlSignals cls op = controlSignals (controlSignals cls op).type (controlSignals cls op).aluOp := by
  cases cls <;> rfl

/-- The end of an instruction keeps the invariant if the multiplexer output fits the snapshot (spec 40 R82, R88). -/
theorem inv_retire {s : State} {cls : InstrClass} {op : AluOp} {k : Bool} (h : s.Inv) (noError : s.err = none) (p : Word)
    (hk : k = true → (controlSignals cls op).jump = true ∨ (controlSignals cls op).branch = true)
    (hj : (controlSignals cls op).jump = true → k = true) : (s.retire (controlSignals cls op) k p).Inv :=
  { h with
    encoder := by rintro n ⟨⟩; exact controlSignals_self cls op
    multiplexer := ⟨fun htaken => ⟨_, rfl, hk htaken⟩, by rintro n ⟨⟩; exact hj⟩
    latch := fun e he => by rw [State.retire_err, noError] at he; cases he }

/-- A failed step keeps the invariant: its record is of the word at the PC, and that word is in error (spec 60 R155, R156). -/
theorem inv_raise {s : State} {code : ErrCode} (h : s.Inv) (ready : s.status = .ready)
    (inError : wordError s.cfg s.fetchWord = some code) : (s.raise code s.fetchWord).Inv :=
  { h with latch := by rintro e ⟨⟩; exact ⟨rfl, fetch_ready (s := s) ready, inError⟩ }

/-- Every instruction that completes keeps the invariant. -/
theorem inv_effect {s t : State} {i : Instr} (h : s.Inv) (noError : s.err = none) (hs : Supported s.cfg i = true)
    (he : Effect s i t) : t.Inv := by
  cases he with
  | writes cls op v k p hi hstore hbranch hk =>
    exact inv_retire (inv_writeReg h _ v) noError p (fun htaken => .inl (hk ▸ htaken)) fun hjump => hk.trans hjump
  | stores rs2 rs1 imm m hi hm => exact inv_retire (inv_store h hm) noError _ nofun nofun
  | branches op k p => exact inv_retire h noError p (fun _ => .inr rfl) nofun
  | fails hno => rw [hs] at hno; cases hno

/-- Settles O19: a step that is idle changes nothing, one that fails only records the error of its word, and one that completes
is a write or a store followed by the end of the instruction. -/
theorem stepKeepsInvariant : Obligations.StepKeepsInvariant := by
  intro s t h hstep
  cases stepsTo_of_step hstep with
  | idle => exact h
  | fails ready code inError => exact inv_raise h ready inError
  | completes ready i _ hd hs he =>
    obtain ⟨noError, -⟩ := status_ready.mp ready
    exact inv_effect h noError hs he

/-- The empty memory reads 0 at every word (spec 10 R28). -/
theorem readWord_nil (k : Nat) : Memory.readWord [] k = 0#32 := by
  simp [Memory.readWord, Memory.readByte, Memory.unlisted]

/-- The initial machine of a build the spec allows meets the invariant with any program the spec allows (spec 10 R28). -/
theorem inv_initial {c : Config} {p : List Word} (build : c.wf) (program : p.length < 2 ^ 32) : (State.initial c p).Inv where
  build := build
  canonical := rfl
  mapped k _ := readWord_nil k
  zero := by simp [State.initial]
  program := program
  encoder _ h := by cases h
  multiplexer := ⟨fun h => (by cases h), fun _ h => (by cases h)⟩
  latch _ h := by cases h

/-- Settles O20: power-on is the initial machine of a build with 256 words and with the empty program (spec 10 R28). -/
theorem invariantAtReset : Obligations.InvariantAtReset := inv_initial (by decide) (by decide)

/-- Settles O21: `reset` and `load` give the initial machine of the same build (spec 70 R171, R172). -/
theorem hostOperationsKeepInvariant : Obligations.HostOperationsKeepInvariant :=
  fun _ h => ⟨inv_initial h.build h.program, fun _ program => inv_initial h.build program⟩

end Sys2Proof.Proofs.Invariant
end

section
/-! Proofs about what a step writes (spec 40 R76, R85, R88, R89, R91; 44 R128): the snapshot tells it, and it is one register or
one word. -/

open Sys2Proof.Machine Sys2Proof.Proofs.EncodeDecode Sys2Proof.Proofs.StepOutcome Sys2Proof.Proofs.Invariant

namespace Sys2Proof.Proofs.StepWrites

/-- The two write enables and the multiplexer output of a completed instruction are true to what it did
(spec 40 R85, R88, R89). -/
theorem effect_snapshot {s t : State} {i : Instr} {n : Snapshot} (hs : Supported s.cfg i = true) (he : Effect s i t)
    (hn : t.snap = some n) : (n.wer = false → SameRegs s t) ∧ (n.wem = false → SameMemory s t) ∧
      (t.taken = false → t.pc = s.pc + 1#32) := by
  cases he with
  | writes cls op v k p hi hstore hbranch hk hp =>
    cases hn
    refine ⟨fun hwer => ?_, fun _ _ => rfl, fun htaken => hp (hk.symm.trans htaken)⟩
    rw [(wer_iff cls op).mpr ⟨hstore, hbranch⟩] at hwer
    cases hwer
  | stores rs2 rs1 imm m =>
    cases hn
    exact ⟨fun _ _ => rfl, nofun, fun _ => rfl⟩
  | branches op k p hi hp => exact ⟨fun _ _ => rfl, fun _ _ => rfl, hp⟩
  | fails hno => rw [hs] at hno; cases hno

/-- Settles O23: an idle or failed step writes nothing, and the snapshot of a completed instruction is true (spec 40 R85). -/
theorem snapshotTellsWhatWasWritten : Obligations.SnapshotTellsWhatWasWritten := by
  intro s t hstep n hn
  cases stepsTo_of_step hstep with
  | idle notReady => exact ⟨fun _ _ => rfl, fun _ _ => rfl, fun ready => absurd ready notReady⟩
  | fails => exact ⟨fun _ _ => rfl, fun _ _ => rfl, nofun⟩
  | completes _ i _ _ hs he =>
    obtain ⟨hwer, hwem, hpc⟩ := effect_snapshot hs he hn
    exact ⟨hwer, hwem, fun _ _ => hpc⟩

/-- The register an effect can write is the one of the instruction's `rd` field (spec 40 R76). -/
theorem effect_readReg_ne {s t : State} {i : Instr} (he : Effect s i t) {r : RegIdx} (hr : r ≠ rdOf (encode i)) :
    t.readReg r = s.readReg r := by
  cases he with
  | writes cls op v => exact s.readReg_writeReg_ne _ v r hr
  | stores => rfl
  | branches => rfl
  | fails => rfl

/-- An effect that changes memory is that of a store (spec 44 R128). -/
theorem effect_sameMemory {s t : State} {i : Instr} (he : Effect s i t)
    (notStore : ∀ rs2 rs1 imm, i ∉ [Instr.sb rs2 rs1 imm, .sh rs2 rs1 imm, .sw rs2 rs1 imm]) : SameMemory s t := by
  cases he with
  | writes => exact fun _ => rfl
  | stores rs2 rs1 imm m hi => exact absurd hi (notStore rs2 rs1 imm)
  | branches => exact fun _ => rfl
  | fails => exact fun _ => rfl

/-- A store names its operands. -/
theorem store_operands {i : Instr} {rs2 rs1 rs2' rs1' : RegIdx} {imm imm' : BitVec 12}
    (h : i ∈ [Instr.sb rs2 rs1 imm, .sh rs2 rs1 imm, .sw rs2 rs1 imm])
    (h' : i ∈ [Instr.sb rs2' rs1' imm', .sh rs2' rs1' imm', .sw rs2' rs1' imm']) : rs1' = rs1 ∧ imm' = imm := by
  simp only [List.mem_cons, List.not_mem_nil, or_false] at h
  obtain rfl | rfl | rfl := h <;> simp_all

/-- A store changes no register, and of memory at most the word at its effective address, if that is in range
(spec 44 R128). -/
theorem effect_store {s t : State} {i : Instr} {rs2 rs1 : RegIdx} {imm : BitVec 12} (hm : s.mem.wf = true)
    (hi : i ∈ [Instr.sb rs2 rs1 imm, .sh rs2 rs1 imm, .sw rs2 rs1 imm]) (he : Effect s i t) :
    SameRegs s t ∧ ∀ j, ¬(j = (s.effAddr rs1 imm).toNat ∧ j < s.cfg.memWords) → t.mem.readWord j = s.mem.readWord j := by
  cases he with
  | writes cls op v k p hw hstore => rw [signals_store hi] at hw; cases hw; exact absurd rfl hstore
  | stores rs2' rs1' imm' m hi' hstored =>
    obtain ⟨rfl, rfl⟩ := store_operands hi hi'
    exact ⟨fun _ => rfl, fun _ => readWord_storedMemory hm hstored⟩
  | branches op k p hb => rw [signals_store hi] at hb; cases hb
  | fails => exact ⟨fun _ => rfl, fun _ _ => rfl⟩

/-- Settles O24: an idle or failed step writes nothing; a completed instruction writes the register of the `rd` field of its
word, or, if it is a store, one word (spec 40 R76; 44 R128). -/
theorem oneWritePerStep : Obligations.OneWritePerStep := by
  intro s t hm hstep
  cases stepsTo_of_step hstep with
  | idle => exact ⟨fun _ _ => rfl, fun _ _ _ _ _ _ => ⟨fun _ => rfl, fun _ _ => rfl⟩, fun _ _ => rfl⟩
  | fails => exact ⟨fun _ _ => rfl, fun _ _ _ _ _ _ => ⟨fun _ => rfl, fun _ _ => rfl⟩, fun _ _ => rfl⟩
  | completes _ i _ hd _ he =>
    rw [hd, ← encode_of_decode hd]
    refine ⟨fun r => effect_readReg_ne he, ?_, ?_⟩
    · rintro rs2 rs1 imm _ hi ⟨⟩
      exact effect_store hm hi he
    · intro notStore
      exact effect_sameMemory he fun rs2 rs1 imm hi => notStore rs2 rs1 imm i hi rfl

end Sys2Proof.Proofs.StepWrites
end

section
/-! Proofs about the snapshot and the `taken` output as inputs (spec 10 R20; 40 R85): no instruction reads them. -/

open Sys2Proof.Machine

namespace Sys2Proof.Proofs.SnapshotUnread

/-- The state with another snapshot and another `taken`. -/
def withLatches (s : State) (n : Option Snapshot) (k : Bool) : State := { s with snap := n, taken := k }

/-- An instruction run from the state with other latches completes alike, in the same state, or fails alike. -/
def RunsAlike (i : Instr) (s : State) (n : Option Snapshot) (k : Bool) : Prop :=
  exec i (withLatches s n k) = exec i s ∨
    (exec i s = .next (s.raise .decodeError (encode i)) ∧
      exec i (withLatches s n k) = .next ((withLatches s n k).raise .decodeError (encode i)))

/-- A sub-word instruction runs alike if its completion does: whether the build has it is not in the latches. -/
theorem runsAlike_of_subwordOnly {i : Instr} {completion : State → State} {s : State} {n : Option Snapshot} {k : Bool}
    (meaning : ∀ s, exec i s = .next (s.subwordOnly (encode i) (completion s)))
    (same : completion (withLatches s n k) = completion s) : RunsAlike i s n k := by
  rw [RunsAlike, meaning, meaning, same]
  cases h : s.cfg.subwordLs with
  | true => exact .inl (by rw [subwordOnly_present h, subwordOnly_present (s := withLatches s n k) h])
  | false => exact .inr (by rw [subwordOnly_absent h, subwordOnly_absent (s := withLatches s n k) h]; exact ⟨rfl, rfl⟩)

/-- Every instruction runs alike: one that completes commits its own latches, and the rest of the state is what it reads. -/
theorem runsAlike (i : Instr) (s : State) (n : Option Snapshot) (k : Bool) : RunsAlike i s n k := by
  cases i
  case fence | fencei | ecall | ebreak => exact .inr ⟨rfl, rfl⟩
  case lb | lh | lbu | lhu | sb | sh => exact runsAlike_of_subwordOnly (fun _ => rfl) rfl
  all_goals exact .inl rfl

/-- Settles O25: status, build and word do not depend on the latches, so the step runs the same instruction or fails alike
(spec 10 R20). -/
theorem snapshotNeverRead : Obligations.SnapshotNeverRead := by
  intro s t n k ready hstep
  have ready' : (withLatches s n k).status = .ready := ready
  cases hd : decode s.cfg s.fetchWord with
  | reject r =>
    rw [step_reject ready hd] at hstep
    cases hstep
    exact ⟨_, step_reject ready' hd, rfl, nofun⟩
  | instr i =>
    rw [step_instr ready hd] at hstep
    obtain alike | ⟨fails, fails'⟩ := runsAlike i s n k
    · exact ⟨t, (step_instr ready' hd).trans (alike.trans hstep), rfl, fun _ => rfl⟩
    · rw [fails] at hstep
      cases hstep
      exact ⟨_, (step_instr ready' hd).trans fails', rfl, nofun⟩

end Sys2Proof.Proofs.SnapshotUnread
end

section
/-! Proofs about `reset` and `load` as fresh starts (spec 70 R172 to R175): they depend on the build and the program alone, which
no run changes. -/

open Sys2Proof.Machine Sys2Proof.Claims Sys2Proof.Proofs.ProgramStore Sys2Proof.Proofs.Invariant Sys2Proof.Proofs.Errors
  Sys2Proof.Proofs.Step

namespace Sys2Proof.Proofs.FreshStart

/-- `reset` depends on the build and the program alone (spec 70 R171, R173). -/
theorem hostReset_congr {s t : State} (hcfg : t.cfg = s.cfg) (him : t.im = s.im) : t.hostReset = s.hostReset := by
  rw [State.hostReset, State.hostReset, hcfg, him]

/-- `load` depends on the build and the program alone (spec 70 R172, R173). -/
theorem hostLoad_congr {s t : State} (hcfg : t.cfg = s.cfg) (p : List Word) : t.hostLoad p = s.hostLoad p := by
  rw [State.hostLoad, State.hostLoad, hcfg]

/-- Settles O29: both operations give an initial machine, all zero, and its build and program are all they depend on
(spec 70 R172, R173). -/
theorem nothingUnspecifiedAfterReset : Obligations.NothingUnspecifiedAfterReset := by
  intro s s' p hcfg
  have zero : ∀ q, (∀ r, (State.initial s.cfg q).readReg r = 0#32) ∧ ∀ k, (State.initial s.cfg q).mem.readWord k = 0#32 :=
    fun q => ⟨State.readReg_initial s.cfg q, readWord_nil⟩
  refine ⟨?_, hostLoad_congr hcfg p, hostReset_congr hcfg, rfl⟩
  simp only [List.forall_mem_cons]
  exact ⟨zero s.im, zero p, List.forall_mem_nil _⟩

/-- A run keeps the program and the build, by induction on its length. -/
theorem runs_keep_program_and_build {n : Nat} {s t : State} (h : Runs n s t) : t.im = s.im ∧ t.cfg = s.cfg := by
  induction n generalizing s with
  | zero => cases h; exact ⟨rfl, rfl⟩
  | succ n ih =>
    obtain ⟨u, hstep⟩ := stepIsTotal s
    obtain ⟨him, hcfg⟩ := step_keeps_program_and_build hstep
    obtain ⟨him', hcfg'⟩ := ih ((run_succ hstep n).symm.trans h)
    exact ⟨him'.trans him, hcfg'.trans hcfg⟩

/-- Settles O32: `reset` leads to the same state after a run as before it, so the same runs start there (spec 70 R175). -/
theorem resetReplaysTheProgram : Obligations.ResetReplaysTheProgram := by
  intro n m s t u hrun hreplay
  obtain ⟨him, hcfg⟩ := runs_keep_program_and_build hrun
  rw [hostReset_congr hcfg him]
  exact hreplay

end Sys2Proof.Proofs.FreshStart
end

section
/-! Proofs about the named instructions without an implementation as meanings (spec 48 R145 to R147, R150). -/

open Sys2Proof.Machine

namespace Sys2Proof.Proofs.UnsupportedMeanings

/-- Settles O11: the meaning of each of the four is the failed step, and the encoder gives the word it records
(spec 48 R145 to R147). -/
theorem unsupportedInstructionsRecordTheirWord : Obligations.UnsupportedInstructionsRecordTheirWord :=
  fun _ _ _ _ => ⟨rfl, rfl, rfl, rfl⟩

/-- Settles O12: each of the six meanings is guarded by `subwordOnly`, which fails in such a build (spec 48 R150). -/
theorem subwordInstructionsAbsent : Obligations.SubwordInstructionsAbsent := by
  intro r rs1 imm s absent
  have fails (w : Word) (t : State) : Fails (.next (s.subwordOnly w t)) s .decodeError w :=
    congrArg _ (subwordOnly_absent absent w t)
  simp only [List.forall_mem_cons]
  exact ⟨fails .., fails .., fails .., fails .., fails .., fails .., List.forall_mem_nil _⟩

end Sys2Proof.Proofs.UnsupportedMeanings
end

section
/-! Proofs about the sub-word instructions in a build that has them (spec 43 R123 to R126; 44 R130, R131): the guard of their
meanings lets them through. -/

open Sys2Proof.Machine

namespace Sys2Proof.Proofs.SubwordPresent

variable {s : State} (present : s.cfg.subwordLs = true) (rd rs2 rs1 : RegIdx) (imm : BitVec 12)

include present

theorem exec_lh : exec (.lh rd rs1 imm) s = .next (loadOp rd ((s.memRead2 (s.effAddr rs1 imm)).signExtend 32) s) :=
  congrArg _ (subwordOnly_present present ..)

theorem exec_lb : exec (.lb rd rs1 imm) s = .next (loadOp rd ((s.memRead1 (s.effAddr rs1 imm)).signExtend 32) s) :=
  congrArg _ (subwordOnly_present present ..)

theorem exec_lhu : exec (.lhu rd rs1 imm) s = .next (loadOp rd ((s.memRead2 (s.effAddr rs1 imm)).setWidth 32) s) :=
  congrArg _ (subwordOnly_present present ..)

theorem exec_lbu : exec (.lbu rd rs1 imm) s = .next (loadOp rd ((s.memRead1 (s.effAddr rs1 imm)).setWidth 32) s) :=
  congrArg _ (subwordOnly_present present ..)

theorem exec_sh : exec (.sh rs2 rs1 imm) s = .next (storeOp (s.memWrite2 (s.effAddr rs1 imm) (s.readReg rs2))) :=
  congrArg _ (subwordOnly_present present ..)

theorem exec_sb : exec (.sb rs2 rs1 imm) s = .next (storeOp (s.memWrite1 (s.effAddr rs1 imm) (s.readReg rs2))) :=
  congrArg _ (subwordOnly_present present ..)

end Sys2Proof.Proofs.SubwordPresent
end

section
/-! Proofs about the branch comparator (spec 40 R80, R87): its answer is read off the ALU result. -/

open Sys2Proof.Machine

namespace Sys2Proof.Proofs.Comparator

theorem alu_sub_beq_zero (a b : Word) : (alu .sub a b == 0#32) = branchCond .eq a b := by
  rw [alu, branchCond, beq_eq_decide]
  exact decide_eq_decide.mpr sub_eq_zero

theorem alu_sub_bne_zero (a b : Word) : (alu .sub a b != 0#32) = branchCond .ne a b := by
  rw [bne, alu_sub_beq_zero, branchCond, branchCond, decide_not]

/-- Bit 0 of a truth value as a number is the truth value (spec 40 R79). -/
theorem getLsbD_boolWord (p : Bool) : (boolWord p).getLsbD 0 = p := by
  cases p <;> rfl

theorem alu_slt_bit (a b : Word) : (alu .slt a b).getLsbD 0 = branchCond .lt a b := getLsbD_boolWord _

theorem alu_sltu_bit (a b : Word) : (alu .sltu a b).getLsbD 0 = branchCond .ltu a b := getLsbD_boolWord _

theorem alu_slt_bit_not (a b : Word) : (!(alu .slt a b).getLsbD 0) = branchCond .ge a b := by
  rw [alu_slt_bit, branchCond, branchCond, ← decide_not]
  exact decide_eq_decide.mpr not_lt

theorem alu_sltu_bit_not (a b : Word) : (!(alu .sltu a b).getLsbD 0) = branchCond .geu a b := by
  rw [alu_sltu_bit, branchCond, branchCond, ← decide_not]
  exact decide_eq_decide.mpr not_lt

end Sys2Proof.Proofs.Comparator
end

section
/-! Proofs about the datapath (spec 40 R74 to R90): class by class, the functional blocks compute the effect common to the class
from the fields of the instruction's word. -/

open Sys2Proof.Machine Sys2Proof.Proofs.SubwordPresent Sys2Proof.Proofs.Comparator

namespace Sys2Proof.Proofs.Datapath

/-! ## One lemma per class -/

section Classes

variable {i : Instr} {s : State} {op : AluOp} {rd rs1 rs2 : RegIdx} {b v : Word}

theorem datapath_reg (hi : signals i = some (.r, op)) (ha : operandA i s = s.readReg (rs1Of (encode i)))
    (h1 : rs1Of (encode i) = rs1) (h2 : rs2Of (encode i) = rs2) (hrd : rdOf (encode i) = rd) :
    regOp op rd rs1 rs2 s = datapath i s := by
  simp [datapath, hi, controlSignals, ha, operandB, h1, h2, hrd, memoryPort, writeBack, takenSignal, nextPc, regOp]

theorem datapath_imm (hi : signals i = some (.i, op)) (ha : operandA i s = s.readReg (rs1Of (encode i)))
    (h1 : rs1Of (encode i) = rs1) (hb : immediate i = b) (hrd : rdOf (encode i) = rd) :
    immOp op rd rs1 b s = datapath i s := by
  simp [datapath, hi, controlSignals, ha, operandB, h1, hb, hrd, memoryPort, writeBack, takenSignal, nextPc, immOp]

theorem datapath_load (hi : signals i = some (.load, .add)) (ha : operandA i s = s.readReg (rs1Of (encode i)))
    (h1 : rs1Of (encode i) = rs1) (hb : immediate i = b) (hv : loadedValue i (s.readReg rs1 + b) s = v)
    (hrd : rdOf (encode i) = rd) : loadOp rd v s = datapath i s := by
  simp [datapath, hi, controlSignals, ha, operandB, h1, hb, hv, hrd, alu, memoryPort, writeBack, takenSignal, nextPc, loadOp]

/-- `t` is the state the memory port answers for the address `x[rs1] + b` and the data register (spec 44 R128). -/
theorem datapath_store {t : State} (hi : signals i = some (.store, .add))
    (ha : operandA i s = s.readReg (rs1Of (encode i))) (h1 : rs1Of (encode i) = rs1) (h2 : rs2Of (encode i) = rs2)
    (hb : immediate i = b) (ht : memoryPort (controlSignals .store .add) i (s.readReg rs1 + b) (s.readReg rs2) s = t)
    (hpc : t.pc = s.pc) : storeOp t = datapath i s := by
  rw [controlSignals] at ht
  simp [datapath, hi, controlSignals, ha, operandB, h1, h2, hb, ht, hpc, alu, takenSignal, nextPc, storeOp]

theorem datapath_branch {rel : BranchRel} {off : BitVec 11} (hi : signals i = some (.branch, rel.aluOp))
    (ha : operandA i s = s.readReg (rs1Of (encode i))) (h1 : rs1Of (encode i) = rs1) (h2 : rs2Of (encode i) = rs2)
    (hb : immediate i = branchOffset off)
    (hc : ∀ x y, condFromAlu i (alu rel.aluOp x y) = branchCond rel x y) :
    branchOp rel rs1 rs2 off s = datapath i s := by
  cases h : branchCond rel (s.readReg rs1) (s.readReg rs2) <;>
    simp [datapath, hi, controlSignals, ha, operandB, h1, h2, hb, hc, h, memoryPort, takenSignal, nextPc, branchOp]

theorem datapath_jump {target : Word} (hi : signals i = some (.jump, .add)) (ht : operandA i s + immediate i = target)
    (hrd : rdOf (encode i) = rd) : jumpOp rd target s = datapath i s := by
  simp [datapath, hi, controlSignals, operandB, ht, hrd, alu, memoryPort, writeBack, takenSignal, nextPc, jumpOp]

theorem datapath_upper (hi : signals i = some (.upper, .add)) (hv : operandA i s + immediate i = v)
    (hrd : rdOf (encode i) = rd) : upperOp rd v s = datapath i s := by
  simp [datapath, hi, controlSignals, operandB, hv, hrd, alu, memoryPort, writeBack, takenSignal, nextPc, upperOp]

end Classes

/-! ## One lemma per class and format: an instruction that means the effect common to its class is its pass through the
datapath -/

section Formats

variable {i : Instr} {s : State} {op : AluOp} {f7 : BitVec 7} {f3 : BitVec 3} {o : BitVec 7} {rd rs1 rs2 : RegIdx}
  {imm : BitVec 12} {shamt : BitVec 5}

theorem agrees_reg (meaning : exec i s = .next (regOp op rd rs1 rs2 s)) (word : encode i = wordR f7 rs2 rs1 f3 rd o)
    (hi : signals i = some (.r, op)) (ha : operandA i s = s.readReg (rs1Of (encode i))) :
    exec i s = .next (datapath i s) := by
  rw [meaning, datapath_reg hi ha (by simp [word]) (by simp [word]) (by simp [word])]

theorem agrees_imm (meaning : exec i s = .next (immOp op rd rs1 (sext12 imm) s)) (word : encode i = wordI imm rs1 f3 rd o)
    (hi : signals i = some (.i, op)) (ha : operandA i s = s.readReg (rs1Of (encode i)))
    (hb : immediate i = sext12 (immIOf (encode i))) : exec i s = .next (datapath i s) := by
  rw [meaning, datapath_imm hi ha (by simp [word]) (by simp [hb, word]) (by simp [word])]

theorem agrees_shift (meaning : exec i s = .next (immOp op rd rs1 (shamtValue shamt) s))
    (word : encode i = wordR f7 shamt rs1 f3 rd o) (hi : signals i = some (.i, op))
    (ha : operandA i s = s.readReg (rs1Of (encode i))) (hb : immediate i = shamtValue (rs2Of (encode i))) :
    exec i s = .next (datapath i s) := by
  rw [meaning, datapath_imm hi ha (by simp [word]) (by simp [hb, word]) (by simp [word])]

theorem agrees_load {v : Word} (meaning : exec i s = .next (loadOp rd v s)) (word : encode i = wordI imm rs1 f3 rd o)
    (hi : signals i = some (.load, .add)) (ha : operandA i s = s.readReg (rs1Of (encode i)))
    (hb : immediate i = sext12 (immIOf (encode i))) (hv : loadedValue i (s.effAddr rs1 imm) s = v) :
    exec i s = .next (datapath i s) := by
  rw [meaning, datapath_load hi ha (by simp [word]) (by simp [hb, word]) hv (by simp [word])]

theorem agrees_store {t : State} (meaning : exec i s = .next (storeOp t)) (word : encode i = wordS imm rs2 rs1 f3 o)
    (hi : signals i = some (.store, .add)) (ha : operandA i s = s.readReg (rs1Of (encode i)))
    (hb : immediate i = sext12 (immSOf (encode i)))
    (ht : memoryPort (controlSignals .store .add) i (s.effAddr rs1 imm) (s.readReg rs2) s = t) (hpc : t.pc = s.pc) :
    exec i s = .next (datapath i s) := by
  rw [meaning, datapath_store hi ha (by simp [word]) (by simp [word]) (by simp [hb, word]) ht hpc]

theorem agrees_branch {rel : BranchRel} {off : BitVec 11} (meaning : exec i s = .next (branchOp rel rs1 rs2 off s))
    (word : encode i = wordB (byteOffB off) rs2 rs1 f3 o) (hi : signals i = some (.branch, rel.aluOp))
    (ha : operandA i s = s.readReg (rs1Of (encode i))) (hb : immediate i = branchOffset (offBOf (encode i)))
    (hc : ∀ x y, condFromAlu i (alu rel.aluOp x y) = branchCond rel x y) : exec i s = .next (datapath i s) := by
  rw [meaning, datapath_branch hi ha (by simp [word]) (by simp [word]) (by simp [hb, word]) hc]

theorem agrees_jump {target : Word} (meaning : exec i s = .next (jumpOp rd target s)) (hrd : rdOf (encode i) = rd)
    (hi : signals i = some (.jump, .add)) (ht : operandA i s + immediate i = target) : exec i s = .next (datapath i s) := by
  rw [meaning, datapath_jump hi ht hrd]

theorem agrees_upper {v : Word} (meaning : exec i s = .next (upperOp rd v s)) (hrd : rdOf (encode i) = rd)
    (hi : signals i = some (.upper, .add)) (hv : operandA i s + immediate i = v) : exec i s = .next (datapath i s) := by
  rw [meaning, datapath_upper hi hv hrd]

end Formats

/-- Settles O26: each meaning is the effect common to its class with the operands of its word, and so is its pass through the
datapath (spec 40 R85). -/
theorem datapathAgreesWithRules : Obligations.DatapathAgreesWithRules := by
  intro i s hs
  cases i
  case lui => exact agrees_upper rfl (rdOf_wordU ..) rfl (by simp [operandA, immediate, encode])
  case auipc => exact agrees_upper rfl (rdOf_wordU ..) rfl (by simp [operandA, immediate, encode])
  case jal => exact agrees_jump rfl (rdOf_wordJ ..) rfl (by simp [operandA, immediate, encode])
  case jalr => exact agrees_jump rfl (rdOf_wordI ..) rfl (by simp [operandA, immediate, encode])
  case beq => exact agrees_branch rfl rfl rfl rfl rfl alu_sub_beq_zero
  case bne => exact agrees_branch rfl rfl rfl rfl rfl alu_sub_bne_zero
  case blt => exact agrees_branch rfl rfl rfl rfl rfl alu_slt_bit
  case bge => exact agrees_branch rfl rfl rfl rfl rfl alu_slt_bit_not
  case bltu => exact agrees_branch rfl rfl rfl rfl rfl alu_sltu_bit
  case bgeu => exact agrees_branch rfl rfl rfl rfl rfl alu_sltu_bit_not
  case lb => exact agrees_load (exec_lb hs ..) rfl rfl rfl rfl rfl
  case lh => exact agrees_load (exec_lh hs ..) rfl rfl rfl rfl rfl
  case lw => exact agrees_load rfl rfl rfl rfl rfl rfl
  case lbu => exact agrees_load (exec_lbu hs ..) rfl rfl rfl rfl rfl
  case lhu => exact agrees_load (exec_lhu hs ..) rfl rfl rfl rfl rfl
  case sb => exact agrees_store (exec_sb hs ..) rfl rfl rfl rfl rfl rfl
  case sh => exact agrees_store (exec_sh hs ..) rfl rfl rfl rfl rfl rfl
  case sw => exact agrees_store rfl rfl rfl rfl rfl rfl rfl
  case addi | slti | sltiu | xori | ori | andi => exact agrees_imm rfl rfl rfl rfl rfl
  case slli | srli | srai => exact agrees_shift rfl rfl rfl rfl rfl
  case fence | fencei | ecall | ebreak => cases hs
  all_goals exact agrees_reg rfl rfl rfl rfl

end Sys2Proof.Proofs.Datapath
end

section
/-! Proofs about the write-back multiplexer (spec 40 R76, R82, R86): its value reaches the register of the `rd` field. -/

open Sys2Proof.Machine Sys2Proof.Proofs.StepOutcome Sys2Proof.Proofs.Datapath

namespace Sys2Proof.Proofs.WriteBack

variable {i : Instr} {s : State} {cls : InstrClass} {op : AluOp}

/-- The memory port writes no register (spec 44 R128). -/
theorem readReg_memoryPort (n : Snapshot) (i : Instr) (a v : Word) (s : State) (r : RegIdx) :
    (memoryPort n i a v s).readReg r = s.readReg r := by
  unfold memoryPort
  split
  · cases i <;> rfl
  · rfl

theorem datapath_snap (hi : signals i = some (cls, op)) : (datapath i s).snap = some (controlSignals cls op) := by
  simp only [datapath, hi, State.retire_snap]

/-- With the register port open, the datapath writes the multiplexer's value to the register of the `rd` field. -/
theorem datapath_regWritten (hi : signals i = some (cls, op)) (hwer : (controlSignals cls op).wer = true) :
    RegWritten s (datapath i s) (rdOf (encode i))
      (writeBack (controlSignals cls op) i (alu op (operandA i s) (operandB (controlSignals cls op) i s)) s) := by
  intro r
  simp only [datapath, hi, hwer, if_true, State.readReg_retire, State.readReg_writeReg, readReg_memoryPort]

/-- With the register port closed, the datapath changes no register. -/
theorem datapath_sameRegs (hi : signals i = some (cls, op)) (hwer : (controlSignals cls op).wer = false) :
    SameRegs s (datapath i s) := by
  intro r
  simp [datapath, hi, hwer, readReg_memoryPort]

/-- Settles O28: a supported instruction is its pass through the datapath, whose register port opens by the class and takes the
multiplexer's value (spec 40 R76, R86). -/
theorem writeBackReachesItsRegister : Obligations.WriteBackReachesItsRegister := by
  intro i s hs
  obtain ⟨hsome, -⟩ := Bool.and_eq_true_iff.mp hs
  obtain ⟨⟨cls, op⟩, hi⟩ := Option.isSome_iff_exists.mp hsome
  exact ⟨datapath i s, cls, op, hi, datapathAgreesWithRules i s hs, datapath_snap hi, wer_iff cls op,
    datapath_regWritten hi, datapath_sameRegs hi⟩

end Sys2Proof.Proofs.WriteBack
end

section
/-! Proofs about the offsets of branches and `jal` (spec 30 R56, R58): the byte offset in a word and the instruction offset the
decoder delivers. -/

open Sys2Proof.Proofs.EncodeDecode

namespace Sys2Proof.Proofs.ByteOffsets

/-- Two zeros below an instruction offset multiply it by four (spec 30 R67). -/
theorem toInt_byteOffset {n : Nat} (off : BitVec n) : (off ++ 0#2).toInt = 4 * off.toInt := BitVec.toInt_append_zero

/-- Shifting the byte offset right by two, with its sign, gives the instruction offset back (spec 30 R56, R58). -/
theorem sshiftRight_byteOffset {n : Nat} (hn : n + 2 ≤ 32) (off : BitVec n) :
    off.signExtend 32 = ((off ++ 0#2).signExtend 32).sshiftRight 2 := by
  apply BitVec.eq_of_toInt_eq
  rw [BitVec.toInt_sshiftRight, BitVec.toInt_signExtend_of_le hn, BitVec.toInt_signExtend_of_le (by omega),
    toInt_byteOffset, Int.shiftRight_eq_div_pow]
  omega

/-- The byte offset in the word of a branch (spec 30 R56). -/
theorem immBOf_wordB_byteOffB (off : BitVec 11) (rs2 rs1 : RegIdx) (f3 : BitVec 3) (op : BitVec 7) :
    immBOf (wordB (byteOffB off) rs2 rs1 f3 op) = byteOffB off := by
  rw [← byteOffB_offBOf _ (immBOf_bit1_wordB ..), offBOf_wordB]

/-- The byte offset in the word of `jal` (spec 30 R58). -/
theorem immJOf_wordJ_byteOffJ (off : BitVec 19) (rd : RegIdx) (op : BitVec 7) :
    immJOf (wordJ (byteOffJ off) rd op) = byteOffJ off := by
  rw [← byteOffJ_offJOf _ (immJOf_bit1_wordJ ..), offJOf_wordJ]

/-- The six branches share a format. -/
theorem encode_branch {rs1 rs2 : RegIdx} {off : BitVec 11} {i : Instr}
    (hi : i ∈ [Instr.beq rs1 rs2 off, .bne rs1 rs2 off, .blt rs1 rs2 off, .bge rs1 rs2 off, .bltu rs1 rs2 off,
      .bgeu rs1 rs2 off]) : ∃ f3, encode i = wordB (byteOffB off) rs2 rs1 f3 opBranch := by
  simp only [List.mem_cons, List.not_mem_nil, or_false] at hi
  obtain rfl | rfl | rfl | rfl | rfl | rfl := hi <;> exact ⟨_, rfl⟩

/-- Settles O5: the word of a delivered branch or `jal` is its encoding, whose byte offset is the instruction offset above two
zeros (spec 30 R56, R58). -/
theorem byteOffsetsBecomeInstructionOffsets : Obligations.ByteOffsetsBecomeInstructionOffsets := by
  constructor
  · intro c w rs1 rs2 off i hi hd b hb
    obtain ⟨f3, hword⟩ := encode_branch hi
    have hoff : b = off ++ 0#2 := calc b
      _ = immBOf w := hb
      _ = off ++ 0#2 := by rw [← encode_of_decode hd, hword, immBOf_wordB_byteOffB, byteOffB]
    rw [hoff]
    exact ⟨sshiftRight_byteOffset (by decide) off, toInt_byteOffset off, BitVec.le_toInt off,
      Int.le_of_lt_add_one BitVec.toInt_lt⟩
  · intro c w rd off hd j hj
    have hoff : j = off ++ 0#2 := calc j
      _ = immJOf w := hj
      _ = off ++ 0#2 := by rw [← encode_of_decode hd, encode, immJOf_wordJ_byteOffJ, byteOffJ]
    rw [hoff]
    exact ⟨sshiftRight_byteOffset (by decide) off, toInt_byteOffset off, BitVec.le_toInt off,
      Int.le_of_lt_add_one BitVec.toInt_lt⟩

end Sys2Proof.Proofs.ByteOffsets
end

section
/-! Proofs about the words that fit a row and are refused all the same (spec 30 R60 steps 3 and 4): which they are, and how a step
on one fails. -/

open Sys2Proof.Machine Sys2Proof.Claims Sys2Proof.Proofs.OpcodeMap Sys2Proof.Proofs.OpcodeRows Sys2Proof.Proofs.AbsentWords
  Sys2Proof.Proofs.RowExclusion Sys2Proof.Proofs.EncodeDecode

namespace Sys2Proof.Proofs.RefusedWords

/-! ## Steps 3 and 4 as questions about the row's pattern and the word -/

/-- A word of major opcode `o` has a byte offset with bit 1 set. -/
def halfOffset (o : BitVec 7) (w : Word) : Bool :=
  if o = opBranch then (immBOf w)[1] else if o = opJal then (immJOf w)[1] else false

/-- The six rows of the richer variant (spec 48 R150). -/
def subwordPattern : Pattern → Bool
  | .op3 o f3 =>
    (o == opLoad && decide (f3 ∈ [0b000#3, 0b001#3, 0b100#3, 0b101#3])) || (o == opStore && decide (f3 ∈ [0b000#3, 0b001#3]))
  | .op _ | .op37 _ _ _ | .whole _ => false

/-- Step 4 asks for the word's own offset bit in the branch rows and in that of `jal`, and nothing elsewhere. -/
theorem offsetNotWhole_build (w : Word) : ∀ r ∈ rows, offsetNotWhole w (r.build w) = halfOffset (opcodeColumn r.pattern) w :=
  List.map_inj_left.mp rfl

/-- Step 3 asks whether the row is one of the six. -/
theorem isSubword_build (w : Word) : ∀ r ∈ rows, (r.build w).isSubword = subwordPattern r.pattern :=
  List.map_inj_left.mp rfl

/-- What the decoder answers for a word that fits a row, by the pattern and the word alone. -/
theorem decode_of_row {c : Config} {r : Row} {w : Word} (hr : r ∈ rows) (hfit : r.pattern.fits w = true) :
    decode c w = if subwordPattern r.pattern && !c.subwordLs then .reject .subwordAbsent
      else if halfOffset (opcodeOf w) w then .reject .offsetNotWhole else .instr (r.build w) := by
  rw [decode_of_fits hr hfit, offsetNotWhole_build w r hr, opcodeColumn_of_fits hfit, Instr.wellFormed,
    isSubword_build w r hr, Bool.not_or, Bool.not_not]

/-- A word fits a row, or step 2 refuses it. -/
theorem exists_row_or_noRow (c : Config) (w : Word) :
    (∃ r ∈ rows, r.pattern.fits w = true) ∨ decode c w = .reject .noRow := by
  by_cases h : ∃ r ∈ rows, r.pattern.fits w = true
  · exact .inl h
  · refine .inr (decode_noRow.mpr fun r hr => ?_)
    rw [Bool.eq_false_iff]
    exact fun hfit => h ⟨r, hr, hfit⟩

/-- Where `funct3` alone tells the rows of a major opcode apart, a word with one of their values fits its row. -/
theorem exists_row_of_funct3 {w : Word} {o : BitVec 7} {f3s : List (BitVec 3)}
    (hrows : (rowsOfOpcode o).map Row.pattern = f3s.map (.op3 o)) (hop : opcodeOf w = o) (hf3 : funct3Of w ∈ f3s) :
    ∃ r ∈ rows, r.pattern = .op3 o (funct3Of w) ∧ r.pattern.fits w = true := by
  have hmem : Pattern.op3 o (funct3Of w) ∈ (rowsOfOpcode o).map Row.pattern := hrows ▸ List.mem_map_of_mem hf3
  obtain ⟨r, hr, hpattern⟩ := List.mem_map.mp hmem
  refine ⟨r, List.mem_of_mem_filter hr, hpattern, ?_⟩
  simp [hpattern, Pattern.fits, hop]

/-! ## Malformed operands (step 4) -/

/-- Bit 1 of a branch's byte offset is bit 8 of the word (spec 30 R56). -/
theorem immBOf_bit1 (w : Word) : (immBOf w)[1] = w[8] := by
  rw [← BitVec.getLsbD_eq_getElem, ← BitVec.getLsbD_eq_getElem]
  simp only [immBOf, BitVec.getLsbD_append]
  simp

/-- Bit 1 of the byte offset of `jal` is bit 21 of the word (spec 30 R58). -/
theorem immJOf_bit1 (w : Word) : (immJOf w)[1] = w[21] := by
  rw [← BitVec.getLsbD_eq_getElem, ← BitVec.getLsbD_eq_getElem]
  simp only [immJOf, BitVec.getLsbD_append]
  simp

theorem halfOffset_iff {w : Word} : halfOffset (opcodeOf w) w = true ↔
    (opcodeOf w = opBranch ∧ w[8] = true) ∨ (opcodeOf w = opJal ∧ w[21] = true) := by
  rw [halfOffset, immBOf_bit1, immJOf_bit1]
  have hne : opBranch ≠ opJal := by decide
  by_cases hbranch : opcodeOf w = opBranch
  · simp [hbranch, hne]
  · by_cases hjal : opcodeOf w = opJal <;> simp [hbranch, hjal, hne.symm]

/-- No row with an offset is one of the six of step 3. -/
theorem not_subword_of_halfOffset {r : Row} {w : Word} (hr : r ∈ rows) (hfit : r.pattern.fits w = true)
    (half : halfOffset (opcodeOf w) w = true) : subwordPattern r.pattern = false := by
  have hrows : ∀ r ∈ rows, opcodeColumn r.pattern = opBranch ∨ opcodeColumn r.pattern = opJal →
      subwordPattern r.pattern = false := by decide
  apply hrows r hr
  rw [opcodeColumn_of_fits hfit]
  exact (halfOffset_iff.mp half).imp And.left And.left

/-- Step 4 refuses the words that fit a row and have a byte offset with bit 1 set, in every build. -/
theorem decode_offsetNotWhole_of_row {c : Config} {w : Word} (hrow : ∃ r ∈ rows, r.pattern.fits w = true)
    (half : halfOffset (opcodeOf w) w = true) : decode c w = .reject .offsetNotWhole := by
  obtain ⟨r, hr, hfit⟩ := hrow
  rw [decode_of_row hr hfit, not_subword_of_halfOffset hr hfit half, half]
  rfl

/-- The branch words with a relation, told by `funct3` (spec 30 R60). -/
theorem mem_branchRelations : ∀ f3 : BitVec 3, f3 ∉ [0b010#3, 0b011#3] →
    f3 ∈ [0b000#3, 0b001#3, 0b100#3, 0b101#3, 0b110#3, 0b111#3] := by decide

/-- A branch word with a relation fits a row. -/
theorem exists_row_branch {w : Word} (hop : opcodeOf w = opBranch) (hf3 : funct3Of w ∉ [0b010#3, 0b011#3]) :
    ∃ r ∈ rows, r.pattern.fits w = true := by
  obtain ⟨r, hr, -, hfit⟩ := exists_row_of_funct3 (by decide) hop (mem_branchRelations _ hf3)
  exact ⟨r, hr, hfit⟩

/-- A word of the major opcode of `jal` fits its row. -/
theorem exists_row_jal {w : Word} (hop : opcodeOf w = opJal) : ∃ r ∈ rows, r.pattern.fits w = true :=
  ⟨⟨.op opJal, fieldsJ .jal⟩, List.mem_of_getElem? (i := 2) rfl, beq_of_eq hop⟩

/-- Exactly the half-offset words are malformed operands (spec 30 R60 step 4). -/
theorem decode_offsetNotWhole {c : Config} {w : Word} : decode c w = .reject .offsetNotWhole ↔ HalfOffsetWord w := by
  constructor
  · intro hd
    obtain ⟨r, hr, hfit⟩ | hno := exists_row_or_noRow c w
    · have half : halfOffset (opcodeOf w) w = true := by
        rw [decode_of_row hr hfit] at hd
        split at hd
        · cases hd
        · split at hd
          · assumption
          · cases hd
      obtain ⟨hop, hbit⟩ | hjal := halfOffset_iff.mp half
      · refine .inl ⟨hop, fun hf3 => ?_, hbit⟩
        rw [decode_opBranch_noRow hop hf3] at hd
        cases hd
      · exact .inr hjal
    · rw [hno] at hd; cases hd
  · rintro (⟨hop, hf3, hbit⟩ | ⟨hop, hbit⟩)
    · exact decode_offsetNotWhole_of_row (exists_row_branch hop hf3) (halfOffset_iff.mpr (.inl ⟨hop, hbit⟩))
    · exact decode_offsetNotWhole_of_row (exists_row_jal hop) (halfOffset_iff.mpr (.inr ⟨hop, hbit⟩))

/-- A step on a half-offset word fails with OperandError (spec 60 R154). -/
theorem step_fails_of_halfOffset {s : State} (ready : s.status = .ready) (half : HalfOffsetWord s.fetchWord) :
    Fails (step s) s .operandError s.fetchWord :=
  step_reject ready (decode_offsetNotWhole.mpr half)

/-- Settles O6: which words step 4 refuses, and the failed step of a refused word (spec 30 R60; 60 R154). -/
theorem operandErrorsAreOddOffsets : Obligations.OperandErrorsAreOddOffsets :=
  ⟨fun _ _ => decode_offsetNotWhole, fun _ => step_fails_of_halfOffset⟩

/-! ## Absent sub-word instructions (step 3) -/

/-- The words of the six rows (spec 48 R150). -/
theorem subwordWord_of_fits {p : Pattern} {w : Word} (hfit : p.fits w = true) (hsub : subwordPattern p = true) :
    SubwordWord w := by
  cases p with
  | op3 o f3 =>
    obtain ⟨rfl, rfl⟩ := fields_of_fits_op3 hfit
    simp only [subwordPattern, Bool.or_eq_true, Bool.and_eq_true, beq_iff_eq, decide_eq_true_eq] at hsub
    exact hsub
  | op => cases hsub
  | op37 => cases hsub
  | whole => cases hsub

/-- Each sub-word word fits one of the six rows. -/
theorem exists_row_of_subwordWord {w : Word} (h : SubwordWord w) :
    ∃ r ∈ rows, subwordPattern r.pattern = true ∧ r.pattern.fits w = true := by
  obtain ⟨hop, hf3⟩ | ⟨hop, hf3⟩ := h
  · have hload : ∀ f ∈ [0b000#3, 0b001#3, 0b100#3, 0b101#3],
        f ∈ [0b000#3, 0b001#3, 0b010#3, 0b100#3, 0b101#3] ∧ subwordPattern (.op3 opLoad f) = true := by decide
    obtain ⟨hmem, hsub⟩ := hload _ hf3
    obtain ⟨r, hr, hpattern, hfit⟩ := exists_row_of_funct3 (by decide) hop hmem
    exact ⟨r, hr, hpattern ▸ hsub, hfit⟩
  · have hstore : ∀ f ∈ [0b000#3, 0b001#3],
        f ∈ [0b000#3, 0b001#3, 0b010#3] ∧ subwordPattern (.op3 opStore f) = true := by decide
    obtain ⟨hmem, hsub⟩ := hstore _ hf3
    obtain ⟨r, hr, hpattern, hfit⟩ := exists_row_of_funct3 (by decide) hop hmem
    exact ⟨r, hr, hpattern ▸ hsub, hfit⟩

/-- Exactly the sub-word words are refused as absent, in a build without them (spec 30 R60 step 3). -/
theorem decode_subwordAbsent {c : Config} {w : Word} :
    decode c w = .reject .subwordAbsent ↔ c.subwordLs = false ∧ SubwordWord w := by
  constructor
  · intro hd
    obtain ⟨r, hr, hfit⟩ | hno := exists_row_or_noRow c w
    · rw [decode_of_row hr hfit] at hd
      split at hd
      · next h =>
        obtain ⟨hsub, habsent⟩ := Bool.and_eq_true_iff.mp h
        exact ⟨Bool.not_eq_eq_eq_not.mp habsent, subwordWord_of_fits hfit hsub⟩
      · split at hd <;> cases hd
    · rw [hno] at hd; cases hd
  · rintro ⟨absent, hword⟩
    obtain ⟨r, hr, hsub, hfit⟩ := exists_row_of_subwordWord hword
    rw [decode_of_row hr hfit, hsub, absent]
    rfl

/-- Settles O7: which words step 3 refuses, and the failed step of a refused word (spec 30 R60; 48 R150). -/
theorem subwordWordsAbsent : Obligations.SubwordWordsAbsent :=
  ⟨fun _ _ => decode_subwordAbsent, fun _ ready absent hword => step_reject ready (decode_subwordAbsent.mpr ⟨absent, hword⟩)⟩

end Sys2Proof.Proofs.RefusedWords
end

section
/-! Proofs about the worked words of the spec (spec 41 to 48, 60): each is the encoding of the instruction it stands for, or a word
of a refused kind. -/

open Sys2Proof.Claims Sys2Proof.Proofs.DecodeEncode Sys2Proof.Proofs.RefusedWords Sys2Proof.Proofs.AbsentWords

namespace Sys2Proof.Proofs.WorkedWords

/-- A word decodes to the instruction it is the encoding of. -/
theorem decode_of_encode_eq {c : Config} {w : Word} {i : Instr} (hword : encode i = w) (present : i.wellFormed c = true) :
    decode c w = .instr i :=
  hword ▸ decodeOfEncode c i present

/-- Settles O1: eleven words by the round trip, one half-offset branch, and one word of the M extension's `mul`. -/
theorem workedWordsDecode : Obligations.WorkedWordsDecode := by
  intro c
  have halfOffset : HalfOffsetWord 0x00208163#32 := by unfold HalfOffsetWord; decide
  have absent : StandardButAbsent 0x026283B3#32 := by unfold StandardButAbsent; decide
  refine ⟨?_, ?_, ?_, ?_, ?_, ?_, ?_, ?_, ?_, ?_, ?_, decode_offsetNotWhole.mpr halfOffset,
    decode_standardButAbsent_noRow absent⟩
  all_goals exact decode_of_encode_eq (by decide) rfl

end Sys2Proof.Proofs.WorkedWords
end

section
/-! Proofs about PC-relative sums (spec 40 R89; 46 R139; 47 R143): words added to the PC as the numbers they stand for. -/

open Sys2Proof.Machine Sys2Proof.Proofs.UpperImmediate

namespace Sys2Proof.Proofs.PcArithmetic

/-- The next index, modulo 2^32 (spec 40 R89). -/
theorem add_one_eq_ofNat (p : Word) : p + 1#32 = BitVec.ofNat 32 (p.toNat + 1) := by
  rw [BitVec.ofNat_add, BitVec.ofNat_toNat, BitVec.setWidth_eq]

/-- A signed offset moves the PC by its number of instructions, modulo 2^32 (spec 45 R132; 46 R139). -/
theorem add_signExtend_eq_ofInt {n : Nat} (p : Word) (off : BitVec n) :
    p + off.signExtend 32 = BitVec.ofInt 32 (p.toNat + off.toInt) := by
  rw [BitVec.ofInt_add, BitVec.ofInt_natCast, BitVec.ofNat_toNat, BitVec.setWidth_eq, BitVec.signExtend]

/-- The sum of `auipc` (spec 47 R143). -/
theorem add_upperValue_eq_ofNat (p : Word) (imm20 : BitVec 20) :
    p + upperValue imm20 = BitVec.ofNat 32 (p.toNat + imm20.toNat * 4096) := by
  rw [upperValue_eq_ofNat, BitVec.ofNat_add, BitVec.ofNat_toNat, BitVec.setWidth_eq]

end Sys2Proof.Proofs.PcArithmetic
end

section
/-! Proofs about class Branch (spec 45): each instruction is one row of the encoder, one relation and the effect common to the
class (R132). -/

open Sys2Proof.Machine Sys2Proof.Claims Sys2Proof.Proofs.PcArithmetic Sys2Proof.Proofs.RefusedWords

namespace Sys2Proof.Proofs.ClassBranch

/-- The rule of a branch, from its row of the encoder, its meaning as `branchOp` and what its relation says; its half-offset words
are refused by step 4 of the decoder (spec 45 R132). -/
theorem branchRule_of_branchOp {mk : RegIdx → RegIdx → BitVec 11 → Instr} {f3 : BitVec 3} {rel : BranchRel}
    {f : Word → Word → Bool} (hf3 : f3 ∉ [0b010#3, 0b011#3])
    (word : ∀ rs1 rs2 off, encode (mk rs1 rs2 off) = wordB (byteOffB off) rs2 rs1 f3 opBranch)
    (meaning : ∀ rs1 rs2 off s, exec (mk rs1 rs2 off) s = .next (branchOp rel rs1 rs2 off s))
    (value : ∀ a b, branchCond rel a b = f a b) : BranchRule mk f3 rel.aluOp f := by
  have half {w : Word} (hop : opcodeOf w = opBranch) (hfunct3 : funct3Of w = f3) (hbit : w[8] = true) : HalfOffsetWord w :=
    .inl ⟨hop, show funct3Of w ∉ _ from hfunct3 ▸ hf3, hbit⟩
  refine ⟨fun rs1 rs2 off s => ⟨?_, ?_⟩, ?_, ?_⟩
  · rintro _ rfl
    exact word rs1 rs2 off
  · rw [meaning, ← value, ← add_signExtend_eq_ofInt, ← add_one_eq_ofNat]
    exact branchOp_moves s rel rs1 rs2 off
  · exact fun c w hop hfunct3 hbit => decode_offsetNotWhole.mpr (half hop hfunct3 hbit)
  · exact fun s ready hop hfunct3 hbit => step_fails_of_halfOffset ready (half hop hfunct3 hbit)

/-- Words are equal as their numbers are. -/
theorem branchCond_eq (a b : Word) : branchCond .eq a b = decide (a.toNat = b.toNat) :=
  decide_eq_decide.mpr BitVec.toNat_inj.symm

theorem branchCond_ne (a b : Word) : branchCond .ne a b = decide (a.toNat ≠ b.toNat) :=
  decide_eq_decide.mpr (not_congr BitVec.toNat_inj.symm)

/-- Settles O49: equality of words is equality of their numbers (spec 45 R133, R134). -/
theorem branchOnEquality : Obligations.BranchOnEquality :=
  ⟨branchRule_of_branchOp (by decide) (fun _ _ _ => rfl) (fun _ _ _ _ => rfl) branchCond_eq,
    branchRule_of_branchOp (by decide) (fun _ _ _ => rfl) (fun _ _ _ _ => rfl) branchCond_ne⟩

/-- Settles O50: the comparator's relations on the signed numbers (spec 45 R135, R136). -/
theorem branchOnSignedOrder : Obligations.BranchOnSignedOrder :=
  ⟨branchRule_of_branchOp (rel := .lt) (by decide) (fun _ _ _ => rfl) (fun _ _ _ _ => rfl) fun _ _ => rfl,
    branchRule_of_branchOp (rel := .ge) (by decide) (fun _ _ _ => rfl) (fun _ _ _ _ => rfl) fun _ _ => rfl⟩

/-- Settles O51: the comparator's relations on the unsigned numbers (spec 45 R137, R138). -/
theorem branchOnUnsignedOrder : Obligations.BranchOnUnsignedOrder :=
  ⟨branchRule_of_branchOp (rel := .ltu) (by decide) (fun _ _ _ => rfl) (fun _ _ _ _ => rfl) fun _ _ => rfl,
    branchRule_of_branchOp (rel := .geu) (by decide) (fun _ _ _ => rfl) (fun _ _ _ _ => rfl) fun _ _ => rfl⟩

end Sys2Proof.Proofs.ClassBranch
end

section
/-! Proof about `sltiu` (spec 42 R117): the unsigned comparison after sign extension. -/

open Sys2Proof.Machine Sys2Proof.Proofs.Alu Sys2Proof.Proofs.ClassI

namespace Sys2Proof.Proofs.CompareUnsigned

/-- Settles O39: the unsigned comparison of the ALU with the sign-extended field (spec 42 R117). -/
theorem compareUnsignedImmediate : Obligations.CompareUnsignedImmediate :=
  immRule_of_immOp (fun _ _ _ => rfl) (fun _ _ _ _ => rfl) fun a imm => alu_sltu a (sext12 imm)

end Sys2Proof.Proofs.CompareUnsigned
end

section
/-! Proof about `auipc` (spec 47 R143): its sum as a number. -/

open Sys2Proof.Machine Sys2Proof.Proofs.PcArithmetic

namespace Sys2Proof.Proofs.UpperToPc

/-- Settles O55: the effect common to class Upper with the sum as a number modulo 2^32 (spec 47 R143). -/
theorem addUpperImmediateToPc : Obligations.AddUpperImmediateToPc := by
  intro rd imm20 s
  refine ⟨rfl, ?_⟩
  rw [← add_upperValue_eq_ofNat]
  exact upperOp_writes s rd (s.pc + upperValue imm20)

end Sys2Proof.Proofs.UpperToPc
end

section
/-! Proofs about class Jump (spec 46): the effect common to the class with its sums as numbers, and jumps that compose with
`jal` and `auipc`. -/

open Sys2Proof.Machine Sys2Proof.Proofs.Operands Sys2Proof.Proofs.ClassI Sys2Proof.Proofs.PcArithmetic

namespace Sys2Proof.Proofs.ClassJump

/-- Settles O52: the effect common to jumps, with link and targets as numbers modulo 2^32 (spec 46 R139, R140). -/
theorem jumpsLinkAndGo : Obligations.JumpsLinkAndGo := by
  intro rd rs1 off imm s
  refine ⟨?_, rfl, ?_, ?_⟩
  · rintro _ rfl
    rfl
  · rw [← add_one_eq_ofNat, ← add_signExtend_eq_ofInt]
    exact jumpOp_writes s rd (s.pc + jumpOffset off)
  · rw [← add_one_eq_ofNat, ← alu_add_sext12]
    exact jumpOp_writes s rd (s.readReg rs1 + sext12 imm)

/-- `jal` leaves the index after it in its link register (spec 46 R139). -/
theorem readReg_jal {s t : State} {rd : RegIdx} {off : BitVec 19} (hrd : rd ≠ 0#5) (h : exec (.jal rd off) s = .next t) :
    t.readReg rd = s.pc + 1#32 := by
  cases h
  exact s.readReg_writeReg_self rd (s.pc + 1#32) hrd

/-- `auipc` leaves the sum in its register (spec 47 R143). -/
theorem readReg_auipc {s t : State} {rd : RegIdx} {hi : BitVec 20} (hrd : rd ≠ 0#5)
    (h : exec (.auipc rd hi) s = .next t) : t.readReg rd = s.pc + upperValue hi := by
  cases h
  exact s.readReg_writeReg_self rd (s.pc + upperValue hi) hrd

/-- `jalr` goes to its register plus the extended field (spec 46 R140). -/
theorem exec_jalr_pc (u : State) (rd rs1 : RegIdx) (imm : BitVec 12) :
    ∃ v, exec (.jalr rd rs1 imm) u = .next v ∧ v.pc = u.readReg rs1 + sext12 imm := ⟨_, rfl, rfl⟩

/-- Settles O53: `jalr` through the register that `jal` or `auipc` wrote; the two parts of a long jump add up (spec 46 R141). -/
theorem callsReturnAndLongJumpsReach : Obligations.CallsReturnAndLongJumpsReach := by
  intro rd s t u hrd hkept
  constructor
  · intro off hjal
    obtain ⟨v, hv, hpc⟩ := exec_jalr_pc u 0#5 rd 0#12
    have hzero : sext12 0#12 = 0#32 := by decide
    rw [hkept, readReg_jal hrd hjal, hzero, BitVec.add_zero] at hpc
    exact ⟨v, hv, hpc⟩
  · intro hi lo hauipc
    obtain ⟨v, hv, hpc⟩ := exec_jalr_pc u 0#5 rd lo
    refine ⟨v, hv, ?_⟩
    calc v.pc
      _ = s.pc + upperValue hi + sext12 lo := by rw [hpc, hkept, readReg_auipc hrd hauipc]
      _ = BitVec.ofInt 32 (s.pc.toNat + hi.toNat * 4096 + lo.toInt) := by
        rw [add_upperValue_eq_ofNat, BitVec.ofInt_add, ← sext12_eq_ofInt, ← BitVec.ofInt_natCast]
        rfl

end Sys2Proof.Proofs.ClassJump
end

section
/-! Proofs about the low end of a word (spec 20 R34 to R36): what a narrow access takes from it and puts into it. -/

namespace Sys2Proof.Proofs.LowEnd

/-- The low `n` bits as a number (spec 20 R36). -/
theorem setWidth_low (w : Word) (n : Nat) : (w.extractLsb' 0 n).setWidth 32 = BitVec.ofNat 32 (w.toNat % 2 ^ n) := by
  rw [← BitVec.ofNat_toNat, BitVec.extractLsb'_toNat, Nat.shiftRight_zero]

/-- The low byte is the word under the mask of its byte (spec 20 R36). -/
theorem setWidth_low8 (w : Word) : (w.extractLsb' 0 8).setWidth 32 = w &&& 0xFF#32 := by
  apply BitVec.eq_of_getLsbD_eq
  intro i hi
  interval_cases i <;> simp

/-- The low half is the word under the mask of its half (spec 20 R36). -/
theorem setWidth_low16 (w : Word) : (w.extractLsb' 0 16).setWidth 32 = w &&& 0xFFFF#32 := by
  apply BitVec.eq_of_getLsbD_eq
  intro i hi
  interval_cases i <;> simp

/-- Replacing the low byte, by masks (spec 20 R35, n = 1). -/
theorem replaceLow8_eq_masks (old v : Word) :
    old.extractLsb' 8 24 ++ v.extractLsb' 0 8 = (old &&& 0xFFFFFF00#32) ||| (v &&& 0xFF#32) := by
  apply BitVec.eq_of_getLsbD_eq
  intro i hi
  simp only [BitVec.getLsbD_append, BitVec.getLsbD_extractLsb']
  interval_cases i <;> simp

end Sys2Proof.Proofs.LowEnd
end

section
/-! Proofs about the narrow loads and stores (spec 43 R123 to R126; 44 R130, R131) in a build that has them. -/

open Sys2Proof.Machine Sys2Proof.Claims Sys2Proof.Proofs.ClassLoad Sys2Proof.Proofs.ClassStore Sys2Proof.Proofs.SubwordPresent
  Sys2Proof.Proofs.LowEnd

namespace Sys2Proof.Proofs.SubwordAccess

/-- The zero-extending load of the low half (spec 43 R125). -/
theorem exec_lhu_number {s : State} (present : s.cfg.subwordLs = true) (rd rs1 : RegIdx) (imm : BitVec 12) :
    exec (.lhu rd rs1 imm) s = .next (loadOp rd (BitVec.ofNat 32 ((s.wordAt (s.effAddr rs1 imm)).toNat % 2 ^ 16)) s) := by
  rw [exec_lhu present, State.memRead2, setWidth_low]

/-- The zero-extending load of the low byte (spec 43 R126). -/
theorem exec_lbu_number {s : State} (present : s.cfg.subwordLs = true) (rd rs1 : RegIdx) (imm : BitVec 12) :
    exec (.lbu rd rs1 imm) s = .next (loadOp rd (BitVec.ofNat 32 ((s.wordAt (s.effAddr rs1 imm)).toNat % 2 ^ 8)) s) := by
  rw [exec_lbu present, State.memRead1, setWidth_low]

/-- Settles O42: the low half or byte of the addressed word, extended by its sign or by zeros (spec 43 R123 to R126). -/
theorem loadSubwordResults : Obligations.LoadSubwordResults :=
  ⟨loadRule_of_loadOp (fun _ _ _ => rfl) fun rd rs1 imm _ present => exec_lh present rd rs1 imm,
    loadRule_of_loadOp (fun _ _ _ => rfl) fun rd rs1 imm _ present => exec_lb present rd rs1 imm,
    loadRule_of_loadOp (fun _ _ _ => rfl) fun rd rs1 imm _ present => exec_lhu_number present rd rs1 imm,
    loadRule_of_loadOp (fun _ _ _ => rfl) fun rd rs1 imm _ present => exec_lbu_number present rd rs1 imm⟩

/-- The end of a store after `MemWrite` by `write`, from what `write` makes of the addressed word and the bytes it reaches; out of
range it is not called (spec 20 R33, R35). -/
theorem storeOp_stores_of_write {s : State} {write : Memory → Nat → Word → Memory} {bytes : Nat} {f : Word → Word → Word}
    {ea v : Word} (stored : (write s.mem ea.toNat v).readWord ea.toNat = f (s.mem.readWord ea.toNat) v)
    (frame : ∀ b, ¬(4 * ea.toNat ≤ b ∧ b < 4 * ea.toNat + bytes) →
      (write s.mem ea.toNat v).readByte b = s.mem.readByte b) :
    Stores (.next (storeOp { s with mem := if s.inRange ea then write s.mem ea.toNat v else s.mem })) s ea bytes
      (f (s.mem.readWord ea.toNat) v) := by
  by_cases inside : ea.toNat < s.cfg.memWords
  · rw [if_pos (show s.inRange ea = true from decide_eq_true inside)]
    exact storeOp_stores (stored.trans (if_pos inside).symm) fun b outside => frame b fun lanes => outside ⟨inside, lanes⟩
  · rw [if_neg (by rw [State.inRange, decide_eq_true_eq]; exact inside)]
    exact storeOp_stores (if_neg inside).symm fun _ _ => rfl

/-- The end of a store after `MemWrite(ea, 2, v)` (spec 44 R130). -/
theorem storeOp_memWrite2_stores {s : State} (hm : s.mem.wf = true) (ea v : Word) :
    Stores (.next (storeOp (s.memWrite2 ea v))) s ea 2
      ((s.mem.readWord ea.toNat).extractLsb' 16 16 ++ v.extractLsb' 0 16) := by
  refine storeOp_stores_of_write (f := fun old v => old.extractLsb' 16 16 ++ v.extractLsb' 0 16) ?_ fun b outside => ?_
  · rw [Memory.readWord_writeLow16 hm, if_pos rfl]
  · rw [Memory.readByte_writeLow16 hm, if_neg (by omega), if_neg (by omega)]

/-- The end of a store after `MemWrite(ea, 1, v)` (spec 44 R131). -/
theorem storeOp_memWrite1_stores {s : State} (hm : s.mem.wf = true) (ea v : Word) :
    Stores (.next (storeOp (s.memWrite1 ea v))) s ea 1
      ((s.mem.readWord ea.toNat).extractLsb' 8 24 ++ v.extractLsb' 0 8) := by
  refine storeOp_stores_of_write (f := fun old v => old.extractLsb' 8 24 ++ v.extractLsb' 0 8) ?_ fun b outside => ?_
  · rw [Memory.readWord_writeLow8 hm, if_pos rfl]
  · rw [Memory.readByte_writeLow8 hm, if_neg (by omega)]

/-- Settles O44: the merge of the low lanes, and the frame of every other byte (spec 44 R130, R131). -/
theorem storeSubwordResults : Obligations.StoreSubwordResults :=
  ⟨storeRule_of_storeOp (fun _ _ _ => rfl) (fun rs2 rs1 imm _ present => exec_sh present rs2 rs1 imm)
      fun _ ea v hm => storeOp_memWrite2_stores hm ea v,
    storeRule_of_storeOp (fun _ _ _ => rfl) (fun rs2 rs1 imm _ present => exec_sb present rs2 rs1 imm)
      fun _ ea v hm => storeOp_memWrite1_stores hm ea v⟩

end Sys2Proof.Proofs.SubwordAccess
end

section
/-! Proofs about loads after stores (spec 20 R36, R41): a load reads what the store left in the addressed word. -/

open Sys2Proof.Machine Sys2Proof.Proofs.MemoryWrite Sys2Proof.Proofs.SubwordPresent Sys2Proof.Proofs.LowEnd

namespace Sys2Proof.Proofs.LoadAfterStore

/-- In range, `MemRead` takes its bits from the addressed word (spec 20 R34). -/
theorem wordAt_inRange {s : State} {a : Word} (inside : a.toNat < s.cfg.memWords) : s.wordAt a = s.mem.readWord a.toNat :=
  if_pos (decide_eq_true inside)

/-- A load leaves its value in its register (spec 43 R121). -/
theorem readReg_loadOp (s : State) {rd : RegIdx} (hrd : rd ≠ 0#5) (v : Word) : (loadOp rd v s).readReg rd = v :=
  s.readReg_writeReg_self rd v hrd

section

variable {s u : State} {a : Word} (hm : s.mem.wf = true) (inside : a.toNat < s.cfg.memWords) (v : Word)
  (hcfg : u.cfg = s.cfg)

include hm inside hcfg

/-- The addressed word in any state with the memory that `MemWrite(a, 4, v)` left (spec 20 R41). -/
theorem wordAt_after_memWrite4 (hmem : u.mem = (s.memWrite4 a v).mem) : u.wordAt a = v := by
  rw [wordAt_inRange (hcfg ▸ inside), hmem, readWord_memWrite4 hm, if_pos inside]

/-- The addressed word in any state with the memory that `MemWrite(a, 1, v)` left (spec 20 R35). -/
theorem wordAt_after_memWrite1 (hmem : u.mem = (s.memWrite1 a v).mem) :
    u.wordAt a = (s.mem.readWord a.toNat).extractLsb' 8 24 ++ v.extractLsb' 0 8 := by
  have hwrite : (s.memWrite1 a v).mem = s.mem.writeLow8 a.toNat v := if_pos (decide_eq_true inside)
  rw [wordAt_inRange (hcfg ▸ inside), hmem, hwrite, Memory.readWord_writeLow8 hm, if_pos rfl]

end

/-- What `sw` leaves for later accesses (spec 44 R129): the written memory, the build and the address register. -/
theorem exec_sw_leaves {s t : State} {rs2 rs1 : RegIdx} {imm : BitVec 12} (h : exec (.sw rs2 rs1 imm) s = .next t) :
    t.mem = (s.memWrite4 (s.effAddr rs1 imm) (s.readReg rs2)).mem ∧ t.cfg = s.cfg ∧
      t.effAddr rs1 imm = s.effAddr rs1 imm := by
  cases h
  exact ⟨rfl, rfl, rfl⟩

/-- What `sb` leaves for later accesses (spec 44 R131). -/
theorem exec_sb_leaves {s t : State} {rs2 rs1 : RegIdx} {imm : BitVec 12} (present : s.cfg.subwordLs = true)
    (h : exec (.sb rs2 rs1 imm) s = .next t) :
    t.mem = (s.memWrite1 (s.effAddr rs1 imm) (s.readReg rs2)).mem ∧ t.cfg = s.cfg ∧
      t.effAddr rs1 imm = s.effAddr rs1 imm := by
  rw [exec_sb present] at h
  cases h
  exact ⟨rfl, rfl, rfl⟩

/-- `lw` leaves the addressed word in its register (spec 43 R122). -/
theorem exec_lw_reads (s : State) {rd : RegIdx} (hrd : rd ≠ 0#5) (rs1 : RegIdx) (imm : BitVec 12) :
    ∃ v, exec (.lw rd rs1 imm) s = .next v ∧ v.readReg rd = s.wordAt (s.effAddr rs1 imm) :=
  ⟨_, rfl, readReg_loadOp s hrd _⟩

/-- `lhu` leaves the low half of the addressed word in its register (spec 43 R125). -/
theorem exec_lhu_reads {s : State} (present : s.cfg.subwordLs = true) {rd : RegIdx} (hrd : rd ≠ 0#5) (rs1 : RegIdx)
    (imm : BitVec 12) :
    ∃ v, exec (.lhu rd rs1 imm) s = .next v ∧ v.readReg rd = s.wordAt (s.effAddr rs1 imm) &&& 0xFFFF#32 :=
  ⟨_, exec_lhu present rd rs1 imm, (readReg_loadOp s hrd _).trans (setWidth_low16 _)⟩

/-- `lbu` leaves the low byte of the addressed word in its register (spec 43 R126). -/
theorem exec_lbu_reads {s : State} (present : s.cfg.subwordLs = true) {rd : RegIdx} (hrd : rd ≠ 0#5) (rs1 : RegIdx)
    (imm : BitVec 12) :
    ∃ v, exec (.lbu rd rs1 imm) s = .next v ∧ v.readReg rd = s.wordAt (s.effAddr rs1 imm) &&& 0xFF#32 :=
  ⟨_, exec_lbu present rd rs1 imm, (readReg_loadOp s hrd _).trans (setWidth_low8 _)⟩

/-- Settles O45: the stored word is at the common address in every later state with that memory (spec 20 R41). -/
theorem loadReturnsStoredWord : Obligations.LoadReturnsStoredWord := by
  intro rs2 rs1 rd rs imm imm' s t u hm haddr inside hrd hstore hmem hcfg
  obtain ⟨hmem', hcfg', -⟩ := exec_sw_leaves hstore
  obtain ⟨v, hload, hread⟩ := exec_lw_reads u hrd rs imm'
  rw [← haddr, wordAt_after_memWrite4 hm inside _ (hcfg.trans hcfg') (hmem.trans hmem')] at hread
  exact ⟨v, hload, hread⟩

/-- Settles O46: the narrow loads take the low end of the stored word, and the narrow store keeps the rest of the old one
(spec 20 R36). -/
theorem mixedWidthsShareTheLowEnd : Obligations.MixedWidthsShareTheLowEnd := by
  intro rs2 rs1 rd imm s t hm present inside hrd
  constructor
  · intro hstore
    obtain ⟨hmem, hcfg, haddr⟩ := exec_sw_leaves hstore
    have present' : t.cfg.subwordLs = true := hcfg ▸ present
    have hword : t.wordAt (t.effAddr rs1 imm) = s.readReg rs2 :=
      haddr ▸ wordAt_after_memWrite4 hm inside (s.readReg rs2) hcfg hmem
    obtain ⟨v, hlbu, hbyte⟩ := exec_lbu_reads present' hrd rs1 imm
    obtain ⟨v', hlhu, hhalf⟩ := exec_lhu_reads present' hrd rs1 imm
    rw [hword] at hbyte hhalf
    exact ⟨v, v', hlbu, hbyte, hlhu, hhalf⟩
  · intro hstore
    obtain ⟨hmem, hcfg, haddr⟩ := exec_sb_leaves present hstore
    obtain ⟨v, hlw, hread⟩ := exec_lw_reads t hrd rs1 imm
    rw [haddr, wordAt_after_memWrite1 hm inside _ hcfg hmem, replaceLow8_eq_masks] at hread
    exact ⟨v, hlw, hread⟩

end Sys2Proof.Proofs.LoadAfterStore
end

section
/-! Proofs about accesses out of range (spec 20 R32, R33): which addresses these are, and that they are silent. -/

open Sys2Proof.Machine Sys2Proof.Proofs.SubwordPresent

namespace Sys2Proof.Proofs.OutOfRange

/-- Settles O48: MEM_WORDS is at most 2^31, so an address in range is below the sign bit (spec 20 R32). -/
theorem negativeAddressesOutOfRange : Obligations.NegativeAddressesOutOfRange := by
  rintro s a ⟨-, hmax⟩
  rw [State.inRange, decide_eq_true_eq, BitVec.toInt_eq_toNat_cond]
  have hlt : a.toNat < 2 ^ 32 := a.isLt
  split <;> omega

section

variable {s : State} {a : Word} (outside : s.cfg.memWords ≤ a.toNat)

include outside

theorem not_inRange : s.inRange a = false := decide_eq_false (Nat.not_lt.mpr outside)

/-- Out of range every read looks at the word 0 (spec 20 R33). -/
theorem wordAt_outOfRange : s.wordAt a = 0#32 := by
  rw [State.wordAt, not_inRange outside]; rfl

theorem memWrite4_outOfRange (v : Word) : s.memWrite4 a v = s := by
  rw [State.memWrite4, not_inRange outside]; rfl

theorem memWrite2_outOfRange (v : Word) : s.memWrite2 a v = s := by
  rw [State.memWrite2, not_inRange outside]; rfl

theorem memWrite1_outOfRange (v : Word) : s.memWrite1 a v = s := by
  rw [State.memWrite1, not_inRange outside]; rfl

end

/-- A store that wrote nothing only goes on (spec 44 R128). -/
theorem silent_store {i : Instr} {s : State} (meaning : exec i s = .next (storeOp s)) :
    ∃ t, exec i s = .next t ∧ t.mem = s.mem ∧ t.err = s.err ∧ t.pc = s.pc + 1#32 := ⟨_, meaning, rfl, rfl, rfl⟩

/-- A load of 0 leaves 0 in its register, which for `x[0]` is what it reads anyway (spec 43 R121). -/
theorem silent_load {i : Instr} {s : State} {r : RegIdx} (meaning : exec i s = .next (loadOp r 0#32 s)) :
    ∃ t, exec i s = .next t ∧ t.readReg r = 0#32 ∧ t.err = s.err ∧ t.pc = s.pc + 1#32 := by
  refine ⟨_, meaning, ?_, rfl, rfl⟩
  rw [loadOp, State.readReg_retire, State.readReg_writeReg]
  simp

/-- Settles O47: out of range each store leaves the state it was given, and each load extends bits of the word 0
(spec 20 R33). -/
theorem outOfRangeIsSilent : Obligations.OutOfRangeIsSilent := by
  intro r rs1 imm s present outside
  have hword := wordAt_outOfRange outside
  simp only [List.forall_mem_cons]
  refine ⟨⟨silent_store ?sw, silent_store ?sh, silent_store ?sb, List.forall_mem_nil _⟩,
    silent_load ?lw, silent_load ?lh, silent_load ?lhu, silent_load ?lb, silent_load ?lbu, List.forall_mem_nil _⟩
  case sw => rw [exec, execSw, memWrite4_outOfRange outside]
  case sh => rw [exec_sh present, memWrite2_outOfRange outside]
  case sb => rw [exec_sb present, memWrite1_outOfRange outside]
  case lw => rw [exec, execLw, State.memRead4, hword]
  case lh => rw [exec_lh present, State.memRead2, hword]; rfl
  case lhu => rw [exec_lhu present, State.memRead2, hword]; rfl
  case lb => rw [exec_lb present, State.memRead1, hword]; rfl
  case lbu => rw [exec_lbu present, State.memRead1, hword]; rfl

end Sys2Proof.Proofs.OutOfRange
end
